-- ==== Sys2Proof/Word.lean ====
section
/-! DEFINITION. The one word width of the machine: every register, memory cell and operand is an 8-bit byte (R12, R18, R39). -/

namespace Sys2Proof

/-- A byte: an unsigned value 0..255 whose bits are numbered 7..0 from the high end (R11, R12). -/
abbrev Byte := BitVec 8

/-- The low eight bits of an exact integer result: pseudocode computes on mathematical integers and
truncates where it writes (R12). -/
def lowByte (n : Nat) : Byte := BitVec.ofNat 8 n

end Sys2Proof
end

