-- ==== Sys2Proof/Config.lean ====
section
/-! DEFINITION. The parameters of R10: the fixed values, the stack-pointer modulus the spec chose (D4),
and the two OPEN launch parameters `init_gpr` (D5) and `init_mem` (D6). The open ones have a value here only
because `State.reset` must be one concrete state; every operation that launches or resets the machine takes them
as arguments. -/

namespace Sys2Proof.Config

/-- `MEM_SIZE`: 256 cells, addresses 0 to 255 (R10, R37). -/
def memSize : Nat := 256

/-- `SP_RESET`: the stack pointer after reset (R10, R121). -/
def spReset : Byte := 255

/-- `PC_RESET`: execution starts at address 0; there is no reset vector (R10, R122). -/
def pcReset : Byte := 0

/-- `FL_RESET` (R10, R36). -/
def flReset : Byte := 0

/-- `SP_MODULUS`, a parameter in {255, 256} whose value in this spec is 256 (R10, R89, decision D4; log entry 5).
`execAt`, `stepAt` and `coreAt` (Machine/Modulus.lean) take the modulus as an argument; `exec`, `step` and `core` are the
machine at this value. -/
def spModulus : Nat := 256

/-- DESIGN CHOICE, unsafe (log entry 1): the `init_gpr` of the one concrete state `State.reset`. The spec leaves
x[0]..x[6] at launch OPEN (R36, D5) and names no value. -/
def initGpr : Vector Byte 7 := #v[0, 0, 0, 0, 0, 0, 0]

/-- DESIGN CHOICE, unsafe (log entry 2): the byte an address that memory does not list reads as. It fixes `init_mem`
(OPEN in R36, D6) in `State.reset` alone, since a memory can list any byte at any address. -/
def unlisted (_addr : Nat) : Byte := 0

end Sys2Proof.Config
end

