-- ==== Sys2Proof/Machine/State.lean ====
section
/-! DEFINITION. The architectural state of R17, whole and as plain data, the reasons the machine can stop, and the state
after reset. -/

namespace Sys2Proof.Machine

/-- Memory: the listed cells, addresses strictly rising, none equal to what an unlisted address reads as
(`Memory.wf` in Machine/Ops.lean). -/
abbrev Memory := List Host.Cell

/-- The four fatal faults the CORE raises, with their info (R102, R103). -/
inductive FaultCause where
  /-- Code 1, `BoundsFault(MEMORY, addr)`: the operand fetch or the advance of pc needs an address above 255. -/
  | memoryBounds (addr : Nat)
  /-- Code 2, `BoundsFault(REGISTER, i)`: a register access at an index above 7. -/
  | registerBounds (i : Nat)
  /-- Code 3, `UnsupportedALU(op)`: an invalid opcode with bit 5 set. -/
  | unsupportedALU (op : Byte)
  /-- Code 4, `UnsupportedInstruction(op)`: an invalid opcode with bit 5 clear. -/
  | unsupportedInstruction (op : Byte)
  deriving DecidableEq, Repr

/-- The fault record (R32), with the widths of R29 that the status ports show. -/
structure FaultRecord where
  /-- The fault code of R102. -/
  code : BitVec 8
  /-- The out-of-range address or register index, or the opcode byte. -/
  info : BitVec 9
  /-- The address of the opcode of the instruction that faulted. -/
  faultPc : Byte
  deriving DecidableEq, Repr

/-- The run state (R31). It is derived from the halt flag and the fault record, so it is not stored. -/
inductive RunState where
  | running
  | halted
  | faulted
  deriving DecidableEq, Repr

/-- The architectural state of the CORE and its memory (R17). -/
structure State where
  /-- `x[0..7]`; `x[7]` is the stack pointer (R18, R19). -/
  regs : Vector Byte 8
  /-- The program counter (R23). -/
  pc : Byte
  /-- The flags register FL: bit 0 E, bit 1 G, bit 2 L, bits 7..3 zero (R26). -/
  fl : Byte
  /-- The halt flag (R30). -/
  halt : Bool
  /-- The fault record, if a fault has been raised (R32). -/
  fault : Option FaultRecord
  /-- The bytes emitted on the output port, oldest first (R33). -/
  out : List Byte
  /-- `mem[0..255]` (R37, R39). -/
  mem : Memory
  deriving DecidableEq, Repr

/-- Why no step exists. A fault of the SPEC is not one of these: raising it is a step, whose next state is FAULTED with
the record written (R108). -/
inductive Fault where
  /-- Raised by `step` in the run state HALTED, which no step leaves (R31, R70). Safe: the spec says no step exists. -/
  | halted
  /-- Raised by `step` in the run state FAULTED, which no step leaves (R31, R70, R110). Safe: the spec says no step
  exists. -/
  | faulted
  deriving DecidableEq, Repr

/-- Why an instruction has no meaning. Nothing in this model answers with one. -/
inductive Refusal where
  /-- An arm of `exec` that has no meaning yet. Safe: nothing can be proved of what it would do. -/
  | notModelled (mnemonic : String)
  deriving DecidableEq, Repr

/-- R121: the state reset puts the CORE in, for the launch parameter `init_gpr` and the memory as it stands (reset does not
change memory, D15). -/
def State.resetWith (initGpr : Vector Byte 7) (mem : Memory) : State where
  regs := initGpr.push Config.spReset
  pc := Config.pcReset
  fl := Config.flReset
  halt := false
  fault := none
  out := []
  mem := mem

/-- The one concrete reset state: R121's values, memory with nothing listed, and the `init_gpr` that log entry 1 names. -/
def State.reset : State := State.resetWith Config.initGpr []

end Sys2Proof.Machine
end

