-- ==== Sys2Proof/Machine/Ops.lean ====
section
/-! DEFINITION. The named operations over memory, registers, pc and the stack pointer, the run state, and raising a fault:
the primitives of R13 from which every meaning is written. -/

namespace Sys2Proof.Machine

/-- What a step or an instruction answers. -/
abbrev Result := Host.Outcome State Fault Refusal

/-! ### Memory (R37 to R39, R44) -/

/-- The byte a memory holds at an address: its listed byte, else what an unlisted address reads as. -/
def Memory.read : Memory → Nat → Byte
  | [], addr => Config.unlisted addr
  | (k, v) :: rest, addr => if k = addr then v else Memory.read rest addr

/-- The memory with no cell listed at the address. -/
def Memory.erase (m : Memory) (addr : Nat) : Memory := m.filter (fun c => c.1 != addr)

/-- The memory with a cell put in before the first listed cell of a higher address. -/
def Memory.insert : Memory → Nat → Byte → Memory
  | [], addr, v => [(addr, v)]
  | (k, w) :: rest, addr, v =>
    if addr < k then (addr, v) :: (k, w) :: rest else (k, w) :: Memory.insert rest addr v

/-- The memory after a byte is written; the canonical form is kept, so a byte equal to what an unlisted address reads as
leaves no entry. -/
def Memory.write (m : Memory) (addr : Nat) (v : Byte) : Memory :=
  if v = Config.unlisted addr then Memory.erase m addr else Memory.insert (Memory.erase m addr) addr v

/-- The canonical form: addresses strictly rising and inside the address space (R37), no entry equal to what an unlisted
address reads as. -/
abbrev Memory.wf (m : Memory) : Prop :=
  m.Pairwise (fun c d => c.1 < d.1) ∧ ∀ c ∈ m, c.1 < Config.memSize ∧ c.2 ≠ Config.unlisted c.1

/-- The memory whose byte at each address of the address space is `f` of it. -/
def Memory.ofFn (f : Nat → Byte) : Memory :=
  (List.range Config.memSize).filterMap
    (fun addr => if f addr = Config.unlisted addr then none else some (addr, f addr))

/-- The memory after bytes are placed at ascending addresses; a byte that would lie outside the address space is not
placed. -/
def Memory.place : Memory → Nat → List Byte → Memory
  | m, _, [] => m
  | m, addr, v :: vs =>
    Memory.place (if addr < Config.memSize then Memory.write m addr v else m) (addr + 1) vs

/-! ### Registers, pc and the other fields -/

/-- `x[i]` for an index that has been checked (R13). -/
def State.reg (s : State) (i : Fin 8) : Byte := s.regs[i.val]

/-- `x[i] <- v` for an index that has been checked (R13). -/
def State.setReg (s : State) (i : Fin 8) (v : Byte) : State := { s with regs := s.regs.set i.val v i.isLt }

/-- The stack pointer's register index (R19). -/
abbrev spIndex : Fin 8 := 7

/-- `SP`, another name for `x[7]` (R13, R19). -/
def State.sp (s : State) : Byte := s.reg spIndex

/-- `SP <- v`. -/
def State.setSp (s : State) (v : Byte) : State := s.setReg spIndex v

/-- `pc <- target` (R13). -/
def State.setPc (s : State) (target : Byte) : State := { s with pc := target }

/-- `FL <- v` (R27). -/
def State.setFl (s : State) (v : Byte) : State := { s with fl := v }

/-- `halt <- 1` (R13, R30). -/
def State.setHalt (s : State) : State := { s with halt := true }

/-- `Output(v)`: the byte goes to the end of the output history (R13, R33). -/
def State.output (s : State) (v : Byte) : State := { s with out := s.out ++ [v] }

/-- The byte at a byte address: every address formed from SP is one, so this access never faults (R41). -/
def State.readByte (s : State) (addr : Byte) : Byte := Memory.read s.mem addr.toNat

/-- Store a byte at a byte address; it never faults (R41). -/
def State.writeByte (s : State) (addr v : Byte) : State := { s with mem := Memory.write s.mem addr.toNat v }

/-- The byte `n + 1` past pc: where the next instruction begins after one with `n` operand bytes (R54, R95, R98). -/
def State.nextPc (s : State) (n : Nat) : Byte := lowByte (s.pc.toNat + n + 1)

/-! ### The stack pointer (R89) -/

/-- `sp_dec(s) = (s - 1) mod SP_MODULUS`, the non-negative remainder. -/
def spDec (modulus : Nat) (sp : Byte) : Byte := lowByte (((sp.toNat : Int) - 1) % (modulus : Int)).toNat

/-- `sp_inc(s) = (s + 1) mod SP_MODULUS`. -/
def spInc (modulus : Nat) (sp : Byte) : Byte := lowByte ((sp.toNat + 1) % modulus)

/-- Decrement the stack pointer, then store a byte, which may depend on the state after the decrement, at the new
stack pointer: the discipline PUSH and CALL share (R93, R95; statements run in order, D21). -/
def State.pushValue (s : State) (modulus : Nat) (value : State → Byte) : State :=
  (s.setSp (spDec modulus s.sp)).writeByte (spDec modulus s.sp) (value (s.setSp (spDec modulus s.sp)))

/-- Increment the stack pointer: the discipline POP and RET share after their read (R94, R96). -/
def State.incSp (s : State) (modulus : Nat) : State := s.setSp (spInc modulus s.sp)

/-! ### Run state and faults (R31, R102, R108) -/

/-- R31. A recorded fault decides first: FAULTED needs no condition on the halt flag. -/
def State.runState (s : State) : RunState :=
  if s.fault.isSome then .faulted else if s.halt then .halted else .running

/-- The fault codes of R102. -/
def FaultCause.code : FaultCause → BitVec 8
  | .memoryBounds _ => 1
  | .registerBounds _ => 2
  | .unsupportedALU _ => 3
  | .unsupportedInstruction _ => 4

/-- The info each fault records, nine bits wide (R29, R102). -/
def FaultCause.info : FaultCause → BitVec 9
  | .memoryBounds addr => BitVec.ofNat 9 addr
  | .registerBounds i => BitVec.ofNat 9 i
  | .unsupportedALU op => BitVec.ofNat 9 op.toNat
  | .unsupportedInstruction op => BitVec.ofNat 9 op.toNat

/-- R108, fault entry: the record becomes (code, info, pc of the faulting instruction), which makes the run state
FAULTED; nothing else is saved or changed. There is no return from a fault (R110); only reset leaves FAULTED. -/
def State.raise (s : State) (c : FaultCause) : State :=
  { s with fault := some { code := c.code, info := c.info, faultPc := s.pc } }

end Sys2Proof.Machine
end

