-- ==== Sys2Proof/Machine/Flags.lean ====
section
/-! DEFINITION. The flags register: the one-hot result of a compare and the named bits (R26, R86). Only CMP computes flags
(R27). -/

namespace Sys2Proof.Machine

/-- R86: E if the values are equal, G if the first is greater, else L; the comparison is unsigned. -/
def compareFlags (u v : Byte) : Byte :=
  if u.toNat = v.toNat then 0b00000001#8
  else if v.toNat < u.toNat then 0b00000010#8
  else 0b00000100#8

/-- FL bit 0, E: the two compared values were equal (R26). The only bit an instruction reads (R28). -/
def State.flE (s : State) : Bool := s.fl.getLsbD 0

/-- FL bit 1, G: the first compared value was greater (R26). -/
def State.flG (s : State) : Bool := s.fl.getLsbD 1

/-- FL bit 2, L: the first compared value was less (R26). -/
def State.flL (s : State) : Bool := s.fl.getLsbD 2

end Sys2Proof.Machine
end

