-- ==== Sys2Proof/Syntax.lean ====
section
/-! DEFINITION. The thirteen instructions (R2), one constructor for each row of the opcode map (R58), and the
decoder's enumeration `insn` (R56). -/

namespace Sys2Proof

/-- An instruction with the operand bytes it uses; ignored operand positions are not part of it (R54, R63). A register
operand `a` or `b` is the WHOLE operand byte as an index, not a 3-bit field of it (R22): indices 8..255 can be encoded and
fault when the register is accessed. -/
inductive Instr where
  /-- `ADD Ra,Rb` (R84). -/
  | add (a b : Nat)
  /-- `MUL Ra,Rb` (R85). -/
  | mul (a b : Nat)
  /-- `CMP Ra,Rb` (R86). -/
  | cmp (a b : Nat)
  /-- `LDI Ra,v`: the second operand is a literal byte (R64, R90). -/
  | ldi (a : Nat) (v : Byte)
  /-- `PRN Ra` (R91). -/
  | prn (a : Nat)
  /-- `HLT` (R92). -/
  | hlt
  /-- `PUSH Ra` (R93). -/
  | push (a : Nat)
  /-- `POP Ra` (R94). -/
  | pop (a : Nat)
  /-- `CALL Ra` (R95). -/
  | call (a : Nat)
  /-- `RET` (R96). -/
  | ret
  /-- `JMP Ra` (R97). -/
  | jmp (a : Nat)
  /-- `JEQ Ra` (R98). -/
  | jeq (a : Nat)
  /-- `JNE Ra` (R99). -/
  | jne (a : Nat)
  deriving DecidableEq, Repr

/-- The decoder's output `insn` (R56): a mnemonic of R58, or one of the two kinds of invalid opcode (R61). -/
inductive Insn where
  | add | mul | cmp | ldi | prn | hlt | push | pop | call | ret | jmp | jeq | jne
  /-- No row of R58, bit 5 set. -/
  | invalidAlu
  /-- No row of R58, bit 5 clear. -/
  | invalidControl
  deriving DecidableEq, Repr

/-- The mnemonic of an instruction. -/
def Instr.insn : Instr → Insn
  | .add _ _ => .add
  | .mul _ _ => .mul
  | .cmp _ _ => .cmp
  | .ldi _ _ => .ldi
  | .prn _ => .prn
  | .hlt => .hlt
  | .push _ => .push
  | .pop _ => .pop
  | .call _ => .call
  | .ret => .ret
  | .jmp _ => .jmp
  | .jeq _ => .jeq
  | .jne _ => .jne

end Sys2Proof
end

