-- ==== Sys2Proof/WellFormed.lean ====
section
/-! DEFINITION. Which terms of `Instr` are instructions the encoding can hold: every register operand fits its operand
byte (R22, R63). Indices 8..255 ARE well formed: they are encodings, and what they do is a fault of the execute phase. -/

namespace Sys2Proof

/-- The register operand fits the operand byte. -/
def fitsByte (a : Nat) : Bool := decide (a < 256)

/-- Every register operand of the instruction fits its operand byte. -/
def Instr.wf : Instr → Bool
  | .add a b => fitsByte a && fitsByte b
  | .mul a b => fitsByte a && fitsByte b
  | .cmp a b => fitsByte a && fitsByte b
  | .ldi a _ => fitsByte a
  | .prn a => fitsByte a
  | .hlt => true
  | .push a => fitsByte a
  | .pop a => fitsByte a
  | .call a => fitsByte a
  | .ret => true
  | .jmp a => fitsByte a
  | .jeq a => fitsByte a
  | .jne a => fitsByte a

end Sys2Proof
end

