-- ==== Sys2Proof/Decode.lean ====
section
/-! DEFINITION. The opcode map as one replaceable table (R58, decision D1), the combinational decoder of one opcode byte
(R56), the decoder of an instruction's bytes, and the encoder written from the same table. -/

namespace Sys2Proof

/-- R58: the valid opcode bytes. The numbers are the spec's decision D1 (log entry 6); a machine with another numbering
replaces this table and nothing else. -/
def opcodeTable : List (Byte × Insn) :=
  [(0b10100000#8, .add), (0b10100010#8, .mul), (0b10100111#8, .cmp),
   (0b10000010#8, .ldi), (0b01000111#8, .prn), (0b00000001#8, .hlt),
   (0b01000101#8, .push), (0b01000110#8, .pop), (0b01010000#8, .call),
   (0b00010001#8, .ret), (0b01010100#8, .jmp), (0b01010101#8, .jeq),
   (0b01010110#8, .jne)]

/-- The decoder's output signals (R56). -/
structure Decoded where
  /-- `opcode[7:6]`, N. -/
  operandCount : BitVec 2
  /-- `opcode[5]`, A. -/
  isAluOp : Bool
  /-- `opcode[4]`, P. -/
  pcIsSetByInstruction : Bool
  /-- `opcode[3:0]`, ID. -/
  operationId : BitVec 4
  /-- The instruction, selected by the whole byte (R57, decision D2). -/
  insn : Insn
  deriving DecidableEq, Repr

/-- R57, R61: the row of the table whose byte equals the opcode, else the kind of invalid opcode that bit 5 gives. -/
def selectInsn (opcode : Byte) : Insn :=
  match opcodeTable.lookup opcode with
  | some m => m
  | none => if opcode.getLsbD 5 then .invalidAlu else .invalidControl

/-- R56: the decoder, total on the 256 opcode bytes. -/
def decodeOpcode (opcode : Byte) : Decoded where
  operandCount := opcode.extractLsb' 6 2
  isAluOp := opcode.getLsbD 5
  pcIsSetByInstruction := opcode.getLsbD 4
  operationId := opcode.extractLsb' 0 4
  insn := selectInsn opcode

/-- Why an opcode byte is no instruction (R61). -/
inductive OpcodeReject where
  /-- "unsupported ALU operation": no row of R58, bit 5 set. -/
  | unsupportedALU (opcode : Byte)
  /-- "unsupported instruction": no row of R58, bit 5 clear. -/
  | unsupportedInstruction (opcode : Byte)
  deriving DecidableEq, Repr

/-- The instruction that an opcode byte and the two bytes after it stand for (R63, R65): a position the instruction
does not use is ignored. -/
def decodeInstr (op a b : Byte) : Except OpcodeReject Instr :=
  match selectInsn op with
  | .add => .ok (.add a.toNat b.toNat)
  | .mul => .ok (.mul a.toNat b.toNat)
  | .cmp => .ok (.cmp a.toNat b.toNat)
  | .ldi => .ok (.ldi a.toNat b)
  | .prn => .ok (.prn a.toNat)
  | .hlt => .ok .hlt
  | .push => .ok (.push a.toNat)
  | .pop => .ok (.pop a.toNat)
  | .call => .ok (.call a.toNat)
  | .ret => .ok .ret
  | .jmp => .ok (.jmp a.toNat)
  | .jeq => .ok (.jeq a.toNat)
  | .jne => .ok (.jne a.toNat)
  | .invalidAlu => .error (.unsupportedALU op)
  | .invalidControl => .error (.unsupportedInstruction op)

/-- Why a byte sequence does not begin with an instruction. -/
inductive DecodeReject where
  /-- The first byte is no valid opcode. -/
  | opcode (r : OpcodeReject)
  /-- The sequence ends inside the instruction. -/
  | truncated
  deriving DecidableEq, Repr

/-- R54, R66: the instruction at the head of a byte sequence, `operand count + 1` bytes long, and the bytes after it.
Total on any bytes. -/
def decode : List Byte → Except DecodeReject (Instr × List Byte)
  | [] => .error .truncated
  | op :: rest =>
    match decodeInstr op (rest.getD 0 0) (rest.getD 1 0) with
    | .error r => .error (.opcode r)
    | .ok i =>
      let n := (decodeOpcode op).operandCount.toNat
      if rest.length < n then .error .truncated else .ok (i, rest.drop n)

/-- The opcode byte of a mnemonic, read off R58's table (the two invalid kinds have none). -/
def opcodeOf (m : Insn) : Byte :=
  match opcodeTable.find? (fun row => row.2 == m) with
  | some row => row.1
  | none => 0

/-- The operand bytes of an instruction, in ascending address order (R42, R67). -/
def operandBytes : Instr → List Byte
  | .add a b => [lowByte a, lowByte b]
  | .mul a b => [lowByte a, lowByte b]
  | .cmp a b => [lowByte a, lowByte b]
  | .ldi a v => [lowByte a, v]
  | .prn a => [lowByte a]
  | .hlt => []
  | .push a => [lowByte a]
  | .pop a => [lowByte a]
  | .call a => [lowByte a]
  | .ret => []
  | .jmp a => [lowByte a]
  | .jeq a => [lowByte a]
  | .jne a => [lowByte a]

/-- R67, R68: the bytes of a well-formed instruction, opcode first, no gaps. -/
def encode (i : Instr) : List Byte := opcodeOf i.insn :: operandBytes i

/-- The bytes of the longest instruction that an opcode-table word of `nbits` bits gives: bit 0 is the least significant
bit of the first byte, and the bits above `nbits` are 0. -/
def tableBytes (nbits w : Nat) : List Byte :=
  [lowByte (w % 2 ^ nbits), lowByte (w % 2 ^ nbits / 2 ^ 8), lowByte (w % 2 ^ nbits / 2 ^ 16)]

/-- The instruction the decoder reads from an opcode-table word. -/
def decodeTableWord (nbits w : Nat) : Option Instr :=
  match decode (tableBytes nbits w) with
  | .ok (i, _) => some i
  | .error _ => none

end Sys2Proof
end

