-- ==== Sys2Proof/Machine/Operands.lean ====
section
/-! DEFINITION. The operand forms: the bounds-checked memory read of the fetch, and the register operand with its check
(R13, R22, R38, R74). A literal operand is the byte itself (R64). -/

namespace Sys2Proof.Machine

/-- `MemRead(addr, 1)` at a 9-bit address (R38): an address above 255 is a bounds fault, decided before the access. -/
def State.memRead (s : State) (addr : Nat) : Except FaultCause Byte :=
  if addr < Config.memSize then .ok (Memory.read s.mem addr) else .error (.memoryBounds addr)

/-- R72, R74: the opcode byte and the two bytes after it, read in order for every opcode; addresses do not wrap. -/
def State.fetch (s : State) : Except FaultCause (Byte × Byte × Byte) :=
  match s.memRead s.pc.toNat with
  | .error c => .error c
  | .ok op =>
    match s.memRead (s.pc.toNat + 1) with
    | .error c => .error c
    | .ok a =>
      match s.memRead (s.pc.toNat + 2) with
      | .error c => .error c
      | .ok b => .ok (op, a, b)

/-- `check_reg(i)` and then the rest of the instruction with the checked register (R13, R75): an index above 7 raises
`BoundsFault(REGISTER, i)` and nothing else happens. -/
def withReg (i : Nat) (s : State) (k : Fin 8 → Result) : Result :=
  if h : i < 8 then k ⟨i, h⟩ else .next (s.raise (.registerBounds i))

/-- The fault an invalid opcode raises when it is dispatched (R61, R75). -/
def rejectCause : OpcodeReject → FaultCause
  | .unsupportedALU op => .unsupportedALU op
  | .unsupportedInstruction op => .unsupportedInstruction op

end Sys2Proof.Machine
end

