-- ==== Sys2Proof/Machine/Alu.lean ====
section
/-! DEFINITION. The ALU instructions ADD, MUL, CMP: the execute phase of R84, R85, R86. The step advances pc. -/

namespace Sys2Proof.Machine

/-- The low 8 bits of the exact sum (R82, R84, decision D3). -/
def aluAdd (u v : Byte) : Byte := lowByte (u.toNat + v.toNat)

/-- The low 8 bits of the exact product (R82, R85, decision D3). -/
def aluMul (u v : Byte) : Byte := lowByte (u.toNat * v.toNat)

/-- `ADD Ra,Rb` (R84). -/
def execAdd (a b : Nat) (s : State) : Result :=
  withReg a s fun d => withReg b s fun r => .next (s.setReg d (aluAdd (s.reg d) (s.reg r)))

/-- `MUL Ra,Rb` (R85). -/
def execMul (a b : Nat) (s : State) : Result :=
  withReg a s fun d => withReg b s fun r => .next (s.setReg d (aluMul (s.reg d) (s.reg r)))

/-- `CMP Ra,Rb` (R86): the whole FL byte is replaced; both registers stay. -/
def execCmp (a b : Nat) (s : State) : Result :=
  withReg a s fun p => withReg b s fun q => .next (s.setFl (compareFlags (s.reg p) (s.reg q)))

end Sys2Proof.Machine
end

