-- ==== Sys2Proof/Machine/Control.lean ====
section
/-! DEFINITION. The control-dispatcher instructions that neither jump nor use the stack: LDI, PRN, HLT (R90, R91, R92). -/

namespace Sys2Proof.Machine

/-- `LDI Ra,v` (R90): the literal byte is stored as it is and never checked. -/
def execLdi (a : Nat) (v : Byte) (s : State) : Result :=
  withReg a s fun d => .next (s.setReg d v)

/-- `PRN Ra` (R91): emit the register's byte on the output port. -/
def execPrn (a : Nat) (s : State) : Result :=
  withReg a s fun r => .next (s.output (s.reg r))

/-- `HLT` (R92): set the halt flag; the step still advances pc (R77). -/
def execHlt (s : State) : Result := .next s.setHalt

end Sys2Proof.Machine
end

