-- ==== Sys2Proof/Machine/Jump.lean ====
section
/-! DEFINITION. The jumps JMP, JEQ, JNE (R97, R98, R99). They set pc themselves, taken or not (P = 1), so the step adds
nothing. -/

namespace Sys2Proof.Machine

/-- Set pc to x[a], checking the index first. -/
def jumpToReg (a : Nat) (s : State) : Result :=
  withReg a s fun r => .next (s.setPc (s.reg r))

/-- A branch on a condition: taken, it behaves as JMP; not taken, it accesses no register (D9) and goes to pc + 2, the
next instruction (90_conflicts.md C2). -/
def branchOn (taken : Bool) (a : Nat) (s : State) : Result :=
  if taken then jumpToReg a s else .next (s.setPc (s.nextPc 1))

/-- `JMP Ra` (R97). -/
def execJmp (a : Nat) (s : State) : Result := jumpToReg a s

/-- `JEQ Ra` (R98): taken iff FL bit E is 1. -/
def execJeq (a : Nat) (s : State) : Result := branchOn s.flE a s

/-- `JNE Ra` (R99): taken iff FL bit E is 0. -/
def execJne (a : Nat) (s : State) : Result := branchOn (!s.flE) a s

end Sys2Proof.Machine
end

