-- ==== Sys2Proof/Machine/Stack.lean ====
section
/-! DEFINITION. The stack instructions PUSH, POP, CALL, RET (R93 to R96), written for any stack-pointer modulus (R89) and run
by `exec` at the spec's value `Config.spModulus`. Statements run in the order the rule writes them, each seeing the earlier
ones (R13, D21), which decides PUSH R7, POP R7 and CALL R7. -/

namespace Sys2Proof.Machine

/-- R93 at a given modulus: decrement SP, then write x[a], read after the decrement, at the new SP. -/
def execPushWith (modulus : Nat) (a : Nat) (s : State) : Result :=
  withReg a s fun r => .next (s.pushValue modulus (fun t => t.reg r))

/-- R94 at a given modulus: read the byte at SP into x[a], then increment the SP just left by that write. -/
def execPopWith (modulus : Nat) (a : Nat) (s : State) : Result :=
  withReg a s fun d => .next ((s.setReg d (s.readByte s.sp)).incSp modulus)

/-- R95 at a given modulus: push the next instruction's address pc + 2, then jump to x[a], read after the decrement. -/
def execCallWith (modulus : Nat) (a : Nat) (s : State) : Result :=
  withReg a s fun r =>
    let pushed := s.pushValue modulus (fun _ => s.nextPc 1)
    .next (pushed.setPc (pushed.reg r))

/-- R96 at a given modulus: pc from the byte at SP, then increment SP. -/
def execRetWith (modulus : Nat) (s : State) : Result :=
  .next ((s.setPc (s.readByte s.sp)).incSp modulus)

/-- `PUSH Ra` (R93). -/
def execPush (a : Nat) (s : State) : Result := execPushWith Config.spModulus a s

/-- `POP Ra` (R94). -/
def execPop (a : Nat) (s : State) : Result := execPopWith Config.spModulus a s

/-- `CALL Ra` (R95). -/
def execCall (a : Nat) (s : State) : Result := execCallWith Config.spModulus a s

/-- `RET` (R96). -/
def execRet (s : State) : Result := execRetWith Config.spModulus s

end Sys2Proof.Machine
end

