-- ==== Sys2Proof/Machine/Loop.lean ====
section
/-! DEFINITION. One step: fetch, decode, dispatch, execute, advance (R70 to R79), over the execute phase as an argument, so
that one definition serves every stack-pointer modulus (R10). -/

namespace Sys2Proof.Machine

/-- R76 for P = 0: pc moves past the instruction's `n` operand bytes, and a next address above 255 raises
`BoundsFault(MEMORY, next)` instead of wrapping (D8), leaving the execute phase's writes in place. -/
def State.advance (s : State) (n : Nat) : State :=
  if s.pc.toNat + n + 1 < Config.memSize then s.setPc (s.nextPc n)
  else s.raise (.memoryBounds (s.pc.toNat + n + 1))

/-- R76, R78: what follows the execute phase. After a raise nothing more happens; with P = 1 pc holds what the
instruction wrote. -/
def State.finish (t : State) (d : Decoded) : State :=
  if t.fault.isSome || d.pcIsSetByInstruction then t else t.advance d.operandCount.toNat

/-- R75: the dispatch of an invalid opcode raises its fault; otherwise the instruction runs and the step finishes it. -/
def dispatchAndFinish (run : Instr → State → Result) (s : State) (op a b : Byte) : Result :=
  match decodeInstr op a b with
  | .error r => .next (s.raise (rejectCause r))
  | .ok i =>
    match run i s with
    | .next t => .next (t.finish (decodeOpcode op))
    | .fault r => .fault r
    | .refused r => .refused r

/-- R78: the whole step of a RUNNING machine, in the order in which its checks and writes happen. -/
def stepRunning (run : Instr → State → Result) (s : State) : Result :=
  match s.fetch with
  | .error c => .next (s.raise c)
  | .ok (op, a, b) => dispatchAndFinish run s op a b

/-- R70: a step is taken only in RUNNING; in HALTED and FAULTED no step exists, and the answer names which. -/
def stepBy (run : Instr → State → Result) (s : State) : Result :=
  match s.runState with
  | .running => stepRunning run s
  | .halted => .fault .halted
  | .faulted => .fault .faulted

end Sys2Proof.Machine
end

