-- ==== Sys2Proof/Machine/Step.lean ====
section
/-! DEFINITION. The step of the machine (R70 to R79), and the placing of an instruction where the next step
fetches. -/

namespace Sys2Proof.Machine

/-- One step at the spec's stack-pointer modulus: `exec` is its execute phase. Machine/Modulus.lean has the step at any
modulus. -/
def step (s : State) : Host.Outcome State Fault Refusal := stepBy exec s

/-- The state with an opcode-table word's bytes stored at pc, pc+1, pc+2, where `step` fetches. A program is loaded from
outside the machine (R124, R125; log entry 3), and this stands for that load. -/
def State.withFetchWord (s : State) (nbits w : Nat) : State :=
  { s with mem := Memory.place s.mem s.pc.toNat (tableBytes nbits w) }

end Sys2Proof.Machine
end

