-- ==== Sys2Proof/Machine/Interface.lean ====
section
/-! DEFINITION. What the outside world does to the machine and sees of it: the reset input (R121, R123), the launch state
(R124), and the CORE's ports (R112). The ports are outputs computed from the state; they hold no state of their own. -/

namespace Sys2Proof.Machine

/-! ### Inputs -/

/-- R121, R123: reset asserted at a step boundary, in any run state. Memory keeps what it holds. -/
def State.assertReset (s : State) (initGpr : Vector Byte 7) : State := State.resetWith initGpr s.mem

/-- R124: the launch state for a program of 1 to 256 bytes, and the OPEN parameters `init_gpr` and `init_mem`. A program
of another length has no launch state (R125, D23). -/
def State.launch (initGpr : Vector Byte 7) (initMem : Nat → Byte) (program : List Byte) : Option State :=
  if 1 ≤ program.length ∧ program.length ≤ Config.memSize then
    some (State.resetWith initGpr (Memory.ofFn (fun k => program.getD k (initMem k))))
  else none

/-! ### Status outputs -/

/-- The status ports (R112). The three fault outputs have a meaning only when `faulted` is 1, so they are absent
otherwise. -/
structure StatusPorts where
  halted : Bool
  faulted : Bool
  faultCode : Option (BitVec 8)
  faultInfo : Option (BitVec 9)
  faultPc : Option Byte
  deriving DecidableEq, Repr

/-- The status ports in a state (R112). -/
def State.statusPorts (s : State) : StatusPorts where
  halted := decide (s.runState = .halted)
  faulted := decide (s.runState = .faulted)
  faultCode := s.fault.map FaultRecord.code
  faultInfo := s.fault.map FaultRecord.info
  faultPc := s.fault.map FaultRecord.faultPc

/-! ### The output port and the memory port during a step -/

/-- The instruction the step taken in this state dispatches: none where no step exists, where the operand fetch faults,
and where the opcode is invalid. -/
def State.current (s : State) : Option Instr :=
  match s.runState with
  | .running =>
    match s.fetch with
    | .ok (op, a, b) => (decodeInstr op a b).toOption
    | .error _ => none
  | _ => none

/-- `out_valid` and `out_data` (R112): the byte emitted in the step taken in this state, present iff that step executes
PRN. -/
def State.outPort (s : State) : Option Byte :=
  match s.current with
  | some (.prn a) => if h : a < 8 then some (s.reg ⟨a, h⟩) else none
  | _ => none

/-- One access on the memory port (R112): `mem_addr` with `mem_rdata`, or with `mem_wdata` and `mem_we` = 1. The address
is eight bits, so no address above 255 appears. -/
inductive Transfer where
  | read (addr data : Byte)
  | write (addr data : Byte)
  deriving DecidableEq, Repr

/-- The fetch's accesses (R40, R74): pc, then pc + 1, then pc + 2, up to the first address that would be above 255. -/
def State.fetchTransfers (s : State) : List Transfer :=
  (([0, 1, 2].map (s.pc.toNat + ·)).filter (· < Config.memSize)).map
    (fun addr => .read (lowByte addr) (Memory.read s.mem addr))

/-- The one data access of a stack instruction whose register check passes, at a given stack-pointer modulus (R10, R40). -/
def State.dataTransfersAt (modulus : Nat) (s : State) : Instr → List Transfer
  | .push a =>
    if h : a < 8 then
      let t := s.setSp (spDec modulus s.sp)
      [.write t.sp (t.reg ⟨a, h⟩)]
    else []
  | .pop a => if a < 8 then [.read s.sp (s.readByte s.sp)] else []
  | .call a =>
    if a < 8 then [.write (spDec modulus s.sp) (s.nextPc 1)] else []
  | .ret => [.read s.sp (s.readByte s.sp)]
  | .add _ _ | .mul _ _ | .cmp _ _ | .ldi _ _ | .prn _ | .hlt | .jmp _ | .jeq _ | .jne _ => []

/-- The accesses of the step taken in this state at a given stack-pointer modulus, in the order of R78 (R10, R40; log
entry 8). -/
def State.transfersAt (modulus : Nat) (s : State) : List Transfer :=
  match s.runState with
  | .running =>
    s.fetchTransfers ++
      (match s.current with
       | some i => s.dataTransfersAt modulus i
       | none => [])
  | _ => []

/-- The data access of a stack instruction at the spec's modulus (R40). -/
def State.dataTransfers (s : State) (i : Instr) : List Transfer := s.dataTransfersAt Config.spModulus i

/-- The accesses of the step taken in this state at the spec's modulus (R40). -/
def State.transfers (s : State) : List Transfer := s.transfersAt Config.spModulus

/-- What an access does to memory: a read nothing (R44), a write its one cell. -/
def Transfer.apply (m : Memory) : Transfer → Memory
  | .read _ _ => m
  | .write addr data => Memory.write m addr.toNat data

end Sys2Proof.Machine
end

