-- ==== Sys2Proof/Machine/Modulus.lean ====
section
/-! DEFINITION. The machine with `SP_MODULUS` as an argument (R10, R89): its execute phase, its step and its core. The parameter
takes the values 255 and 256; `exec`, `step` and `core` are this machine at the spec's value `Config.spModulus`. -/

namespace Sys2Proof.Machine

/-- The execute phase at a stack-pointer modulus (R75, R89): the four stack instructions use it, the others have one meaning. -/
def execAt (modulus : Nat) (i : Instr) (s : State) : Result :=
  match i with
  | .add a b => execAdd a b s
  | .mul a b => execMul a b s
  | .cmp a b => execCmp a b s
  | .ldi a v => execLdi a v s
  | .prn a => execPrn a s
  | .hlt => execHlt s
  | .push a => execPushWith modulus a s
  | .pop a => execPopWith modulus a s
  | .call a => execCallWith modulus a s
  | .ret => execRetWith modulus s
  | .jmp a => execJmp a s
  | .jeq a => execJeq a s
  | .jne a => execJne a s

/-- One step at a stack-pointer modulus (R70 to R79, R10). -/
def stepAt (modulus : Nat) (s : State) : Result := stepBy (execAt modulus) s

/-- The machine at a stack-pointer modulus (R10). Reset gives the same state under each (R121). -/
def coreAt (modulus : Nat) : Host.Core :=
  { State := State, Fault := Fault, Refusal := Refusal, step := stepAt modulus, reset := State.reset }

end Sys2Proof.Machine
end

