-- ==== Sys2Proof/Safety.lean ====
section
/-! DEFINITION. The terms in which claims about the machine are stated: the state of an answer, the tables of registers an
instruction accesses and writes (R21, R105), and the invariant of the state. -/

namespace Sys2Proof.Machine

/-- The next state of an answer, if it is one. -/
def nextState? : Result → Option State
  | .next t => some t
  | .fault _ => none
  | .refused _ => none

/-- The answer with its next state changed; a stop stays as it is. -/
def mapNext (f : State → State) : Result → Result
  | .next t => .next (f t)
  | .fault r => .fault r
  | .refused r => .refused r

/-- R21, column "writes": the indices of the general registers an instruction may write. -/
def writtenRegs : Instr → List Nat
  | .add a _ => [a]
  | .mul a _ => [a]
  | .cmp _ _ => []
  | .ldi a _ => [a]
  | .prn _ => []
  | .hlt => []
  | .push _ => [7]
  | .pop a => [a, 7]
  | .call _ => [7]
  | .ret => [7]
  | .jmp _ => []
  | .jeq _ => []
  | .jne _ => []

/-- R21, column "reads": the indices of the general registers an instruction may read; JEQ and JNE read theirs when
taken. -/
def readRegs : Instr → List Nat
  | .add a b => [a, b]
  | .mul a b => [a, b]
  | .cmp a b => [a, b]
  | .ldi _ _ => []
  | .prn a => [a]
  | .hlt => []
  | .push a => [7, a]
  | .pop _ => [7]
  | .call a => [7, a]
  | .ret => [7]
  | .jmp a => [a]
  | .jeq a => [a]
  | .jne a => [a]

/-- R105: the register operands an instruction accesses, in the order in which they are checked; JEQ and JNE access theirs
only when taken, which FL bit E decides. -/
def accessedRegs (equal : Bool) : Instr → List Nat
  | .add a b => [a, b]
  | .mul a b => [a, b]
  | .cmp a b => [a, b]
  | .ldi a _ => [a]
  | .prn a => [a]
  | .hlt => []
  | .push a => [a]
  | .pop a => [a]
  | .call a => [a]
  | .ret => []
  | .jmp a => [a]
  | .jeq a => if equal then [a] else []
  | .jne a => if equal then [] else [a]

/-- R26: the values FL takes: 0 before any compare, one-hot in the low three bits after one. -/
abbrev FlagsLegal (fl : Byte) : Prop := fl = 0 ∨ fl = 1 ∨ fl = 2 ∨ fl = 4

/-- R102: the records a fault leaves. A memory bounds fault always records address 256, a register bounds fault an
operand byte 8..255, and a decode fault a byte that R58 does not list, of the kind its bit 5 gives. -/
abbrev FaultRecord.legal (r : FaultRecord) : Prop :=
  (r.code = 1 ∧ r.info = 256) ∨
  (r.code = 2 ∧ 8 ≤ r.info.toNat ∧ r.info.toNat < 256) ∨
  (r.code = 3 ∧ r.info.toNat < 256 ∧ selectInsn (r.info.setWidth 8) = .invalidAlu) ∨
  (r.code = 4 ∧ r.info.toNat < 256 ∧ selectInsn (r.info.setWidth 8) = .invalidControl)

/-- The invariant of every run: memory is canonical; FL is legal (R26); a halted machine has stopped right after a HLT
with no fault recorded (R77, R92); a faulted one holds a legal record whose fault_pc is its pc, and has not halted (R102,
R108, R109). -/
abbrev State.Inv (s : State) : Prop :=
  Memory.wf s.mem ∧ FlagsLegal s.fl ∧
  (s.halt = true → s.fault = none ∧ 1 ≤ s.pc.toNat ∧ s.pc.toNat ≤ 254 ∧
    Memory.read s.mem (s.pc.toNat - 1) = 0x01#8) ∧
  (∀ r ∈ s.fault, FaultRecord.legal r ∧ r.faultPc = s.pc)

end Sys2Proof.Machine
end

