-- ==== Sys2Proof/Certificates/Slice0/Obligations.lean ====
section
/-! DEFINITION. The statements about the machine, for the provers. A "stated" one formalises the numbered rules its entry of
OBLIGATIONS.json cites; a "derived" one also rests on a decision or an inference that the spec marks as its own, which its
docstring names. In every statement the opcode byte values are the spec's decision D1 (log entry 6), and the numbers that
stand for a named fault in a record `⟨code, info, fault_pc⟩` are its decision D11. A statement over every `Instr` also covers
register operands of 256 and more, which no byte encodes: what it says of them is the model's choice (log entry 7). -/

open Sys2Proof Sys2Proof.Machine

/-! ### Encoding -/

/-- One written-out encoding for every row of the opcode map, bit by bit (30_encoding.md section 3; the byte values are the
spec's decision D1, log entry 6). -/
def Obligations.WrittenWordsDecode : Prop :=
  decode [0b10100000#8, 3, 4] = .ok (.add 3 4, []) ∧
  decode [0b10100010#8, 5, 200] = .ok (.mul 5 200, []) ∧
  decode [0b10100111#8, 0, 7] = .ok (.cmp 0 7, []) ∧
  decode [0b10000010#8, 6, 128] = .ok (.ldi 6 128, []) ∧
  decode [0b01000111#8, 255] = .ok (.prn 255, []) ∧
  decode [0b00000001#8] = .ok (.hlt, []) ∧
  decode [0b01000101#8, 1] = .ok (.push 1, []) ∧
  decode [0b01000110#8, 2] = .ok (.pop 2, []) ∧
  decode [0b01010000#8, 3] = .ok (.call 3, []) ∧
  decode [0b00010001#8] = .ok (.ret, []) ∧
  decode [0b01010100#8, 4] = .ok (.jmp 4, []) ∧
  decode [0b01010101#8, 5] = .ok (.jeq 5, []) ∧
  decode [0b01010110#8, 6] = .ok (.jne 6, [])

/-- The decoder's outputs for each of the 256 bytes (30_encoding.md sections 2 to 4): the four fields are bits 7..6, 5, 4 and
3..0; each of the thirteen valid bytes selects the mnemonic of its row of the opcode map; any other byte is invalid in the
kind that bit 5 gives, 125 with it set and 118 with it clear. Whole-byte selection is the spec's decision D2, the byte
values its decision D1. -/
def Obligations.DecoderOutputsOfEveryByte : Prop :=
  (∀ op : Byte,
    (decodeOpcode op).operandCount.toNat = op.toNat / 64 ∧
    (decodeOpcode op).isAluOp = decide (op.toNat / 32 % 2 = 1) ∧
    (decodeOpcode op).pcIsSetByInstruction = decide (op.toNat / 16 % 2 = 1) ∧
    (decodeOpcode op).operationId.toNat = op.toNat % 16 ∧
    ((decodeOpcode op).insn = .invalidAlu ↔
      op.toNat / 32 % 2 = 1 ∧ op ∉ ([0xA0, 0xA2, 0xA7] : List Byte)) ∧
    ((decodeOpcode op).insn = .invalidControl ↔
      op.toNat / 32 % 2 = 0 ∧
      op ∉ ([0x82, 0x47, 0x01, 0x45, 0x46, 0x50, 0x11, 0x54, 0x55, 0x56] : List Byte))) ∧
  ((decodeOpcode 0xA0).insn = .add ∧ (decodeOpcode 0xA2).insn = .mul ∧ (decodeOpcode 0xA7).insn = .cmp ∧
    (decodeOpcode 0x82).insn = .ldi ∧ (decodeOpcode 0x47).insn = .prn ∧ (decodeOpcode 0x01).insn = .hlt ∧
    (decodeOpcode 0x45).insn = .push ∧ (decodeOpcode 0x46).insn = .pop ∧ (decodeOpcode 0x50).insn = .call ∧
    (decodeOpcode 0x11).insn = .ret ∧ (decodeOpcode 0x54).insn = .jmp ∧ (decodeOpcode 0x55).insn = .jeq ∧
    (decodeOpcode 0x56).insn = .jne) ∧
  ((List.range 256).filter (fun n => decide (selectInsn (lowByte n) = .invalidAlu))).length = 125 ∧
  ((List.range 256).filter (fun n => decide (selectInsn (lowByte n) = .invalidControl))).length = 118

/-- Decoding the bytes of any well-formed instruction, whatever follows them, gives the instruction back and leaves what
follows: no bit of an encoding is dropped (30_encoding.md sections 1 and 7). -/
def Obligations.DecodeOfEncodeIsTheInstruction : Prop :=
  ∀ (i : Instr) (rest : List Byte), i.wf = true → decode (encode i ++ rest) = .ok (i, rest)

/-- What decodes was encoded: the decoder answers only well-formed instructions, and the bytes it read are that
instruction's encoding, so each byte sequence has one meaning (30_encoding.md sections 1, 3, 6). -/
def Obligations.EncodeOfDecodeIsTheBytes : Prop :=
  ∀ (bytes : List Byte) (i : Instr) (rest : List Byte), decode bytes = .ok (i, rest) →
    i.wf = true ∧ encode i ++ rest = bytes

/-! ### What each instruction does: ALU -/

/-- ADD (41_alu.md section 2): the low 8 bits of the exact sum go to the first operand's register, and nothing else changes.
The width is the spec's decision D3. -/
def Obligations.AddWritesTheSumModulo256 : Prop :=
  ∀ (a b : Nat) (ha : a < 8) (hb : b < 8) (s : State),
    exec (.add a b) s =
      .next { s with regs := s.regs.set a (BitVec.ofNat 8 ((s.regs[a].toNat + s.regs[b].toNat) % 256)) }

/-- MUL (41_alu.md section 2): the low 8 bits of the exact product go to the first operand's register, and nothing else
changes. The width is the spec's decision D3. -/
def Obligations.MulWritesTheProductModulo256 : Prop :=
  ∀ (a b : Nat) (ha : a < 8) (hb : b < 8) (s : State),
    exec (.mul a b) s =
      .next { s with regs := s.regs.set a (BitVec.ofNat 8 ((s.regs[a].toNat * s.regs[b].toNat) % 256)) }

/-- CMP, rule R86 whole: its encoding; FL replaced by E, G or L in an unsigned comparison, both registers kept; and the
bounds fault of operand a, else of operand b, with FL not written. Operands are bytes. -/
def Obligations.CmpSetsOneFlagByUnsignedOrder : Prop :=
  (∀ a b : Nat, a < 256 → b < 256 → encode (.cmp a b) = [0xA7, BitVec.ofNat 8 a, BitVec.ofNat 8 b]) ∧
  (∀ (a b : Nat) (ha : a < 8) (hb : b < 8) (s : State),
    (s.regs[a].toNat = s.regs[b].toNat → exec (.cmp a b) s = .next { s with fl := 0b00000001#8 }) ∧
    (s.regs[a].toNat > s.regs[b].toNat → exec (.cmp a b) s = .next { s with fl := 0b00000010#8 }) ∧
    (s.regs[a].toNat < s.regs[b].toNat → exec (.cmp a b) s = .next { s with fl := 0b00000100#8 })) ∧
  (∀ (a b : Nat) (s : State), a > 7 → a < 256 → b < 256 →
    exec (.cmp a b) s = .next { s with fault := some ⟨2, BitVec.ofNat 9 a, s.pc⟩ }) ∧
  (∀ (a b : Nat) (s : State), a ≤ 7 → b > 7 → b < 256 →
    exec (.cmp a b) s = .next { s with fault := some ⟨2, BitVec.ofNat 9 b, s.pc⟩ })

/-! ### What each instruction does: control dispatcher -/

/-- LDI, rule R90 whole: its encoding; the literal byte is stored as it is, whatever it is; the bounds fault of operand
a, an operand byte; and the step that runs it at pc up to 252 also moves pc by 3 (at 253 the advance faults). -/
def Obligations.LdiStoresItsLiteral : Prop :=
  (∀ (a : Nat) (v : Byte), a < 256 → encode (.ldi a v) = [0x82, BitVec.ofNat 8 a, v]) ∧
  (decodeOpcode 0x82).pcIsSetByInstruction = false ∧
  (∀ (a : Nat) (v : Byte) (ha : a < 8) (s : State),
    exec (.ldi a v) s = .next { s with regs := s.regs.set a v }) ∧
  (∀ (a : Nat) (v : Byte) (s : State), a > 7 → a < 256 →
    exec (.ldi a v) s = .next { s with fault := some ⟨2, BitVec.ofNat 9 a, s.pc⟩ }) ∧
  (∀ (a : Nat) (v : Byte) (ha : a < 8) (s : State), s.runState = .running → s.pc.toNat ≤ 252 →
    Memory.read s.mem s.pc.toNat = 0x82#8 → Memory.read s.mem (s.pc.toNat + 1) = BitVec.ofNat 8 a →
    Memory.read s.mem (s.pc.toNat + 2) = v →
    step s = .next { s with regs := s.regs.set a v, pc := BitVec.ofNat 8 (s.pc.toNat + 3) })

/-- PRN (42_control_dispatcher.md section 2): the register's byte goes to the end of the output history and nothing else
changes. The output history is the spec's decision D13. -/
def Obligations.PrnAppendsTheRegister : Prop :=
  ∀ (a : Nat) (ha : a < 8) (s : State),
    exec (.prn a) s = .next { s with out := s.out ++ [s.regs[a]] }

/-- HLT, rule R92 whole: its encoding; its effect; the step still advances pc by 1 and the run is HALTED, after which no
instruction executes; and at addresses 254 and 255 its operand fetch faults instead. -/
def Obligations.HltHaltsAndStillAdvances : Prop :=
  encode .hlt = [0x01] ∧
  (∀ s : State, exec .hlt s = .next { s with halt := true }) ∧
  (∀ s : State, s.runState = .running → Memory.read s.mem s.pc.toNat = 0x01#8 →
    (s.pc.toNat ≤ 253 →
      step s = .next { s with halt := true, pc := BitVec.ofNat 8 (s.pc.toNat + 1) } ∧
      ({ s with halt := true, pc := BitVec.ofNat 8 (s.pc.toNat + 1) } : State).runState = .halted ∧
      step { s with halt := true, pc := BitVec.ofNat 8 (s.pc.toNat + 1) } = .fault .halted) ∧
    (254 ≤ s.pc.toNat → step s = .next { s with fault := some ⟨1, 256, s.pc⟩ }))

/-- PUSH (42_control_dispatcher.md section 2): SP is decremented, then x[a] as it then stands (for R7 the decremented SP) is
stored at the new SP, and nothing else changes. The modulus and the order are the spec's decisions D4 and D21. -/
def Obligations.PushDecrementsThenStores : Prop :=
  ∀ (a : Nat) (ha : a < 8) (s : State),
    exec (.push a) s =
      .next { s with
        regs := s.regs.set 7 (spDec Config.spModulus s.regs[7]),
        mem := Memory.write s.mem (spDec Config.spModulus s.regs[7]).toNat
          ((s.regs.set 7 (spDec Config.spModulus s.regs[7]))[a]) }

/-- POP (42_control_dispatcher.md section 2): x[a] takes the byte at SP, then x[7] as it then stands (for R7 the popped
byte) is incremented, and nothing else changes. Decisions D4 and D21. -/
def Obligations.PopLoadsThenIncrements : Prop :=
  ∀ (a : Nat) (ha : a < 8) (s : State),
    exec (.pop a) s =
      .next { s with
        regs := (s.regs.set a (Memory.read s.mem s.regs[7].toNat)).set 7
          (spInc Config.spModulus (s.regs.set a (Memory.read s.mem s.regs[7].toNat))[7]) }

/-- CALL (42_control_dispatcher.md section 2): the next instruction's address pc + 2 is stored at the decremented SP, and pc
takes x[a] as it then stands (for R7 the decremented SP). Decisions D4 and D21; pc + 2 is 90_conflicts.md C3, and its
low byte at pc 254 and 255 the model's own (log entry 9). -/
def Obligations.CallPushesTheReturnAddress : Prop :=
  ∀ (a : Nat) (ha : a < 8) (s : State),
    exec (.call a) s =
      .next { s with
        regs := s.regs.set 7 (spDec Config.spModulus s.regs[7]),
        mem := Memory.write s.mem (spDec Config.spModulus s.regs[7]).toNat (BitVec.ofNat 8 (s.pc.toNat + 2)),
        pc := (s.regs.set 7 (spDec Config.spModulus s.regs[7]))[a] }

/-- RET, rule R96 whole: its encoding; pc takes the byte at SP, whatever it is, then SP is incremented; no operand, so no
fault of its own; the loop does not advance after it. -/
def Obligations.RetPopsIntoPc : Prop :=
  encode .ret = [0x11] ∧
  (decodeOpcode 0x11).pcIsSetByInstruction = true ∧
  (∀ s : State,
    exec .ret s =
      .next { s with
        pc := Memory.read s.mem s.regs[7].toNat,
        regs := s.regs.set 7 (spInc Config.spModulus s.regs[7]) })

/-- JMP, rule R97 whole: its encoding; pc takes the register; the bounds fault of operand a, a byte; and with a target equal to pc
the machine stays on the JMP. -/
def Obligations.JmpSetsPcToTheRegister : Prop :=
  (∀ a : Nat, a < 256 → encode (.jmp a) = [0x54, BitVec.ofNat 8 a]) ∧
  (decodeOpcode 0x54).pcIsSetByInstruction = true ∧
  (∀ (a : Nat) (ha : a < 8) (s : State), exec (.jmp a) s = .next { s with pc := s.regs[a] }) ∧
  (∀ (a : Nat) (s : State), a > 7 → a < 256 →
    exec (.jmp a) s = .next { s with fault := some ⟨2, BitVec.ofNat 9 a, s.pc⟩ }) ∧
  (∀ (a : Nat) (ha : a < 8) (s : State), s.regs[a] = s.pc → exec (.jmp a) s = .next s)

/-- JEQ (42_control_dispatcher.md section 2): with E set it behaves as JMP; with E clear it goes to pc + 2, the next
instruction, whatever the operand is. That the operand is not checked when not taken is the spec's decision D9. The model's own: the
fault of an operand of 256 and more (log entry 7), and the low byte of pc + 2 at pc 254 and 255 (log entry 9). -/
def Obligations.JeqJumpsIffEqual : Prop :=
  (∀ (a : Nat) (ha : a < 8) (s : State), s.fl.getLsbD 0 = true →
    exec (.jeq a) s = .next { s with pc := s.regs[a] }) ∧
  (∀ (a : Nat) (s : State), s.fl.getLsbD 0 = false →
    exec (.jeq a) s = .next { s with pc := BitVec.ofNat 8 (s.pc.toNat + 2) }) ∧
  (∀ (a : Nat) (s : State), s.fl.getLsbD 0 = true → a > 7 →
    exec (.jeq a) s = .next { s with fault := some ⟨2, BitVec.ofNat 9 a, s.pc⟩ })

/-- JNE (42_control_dispatcher.md section 2): the same on E clear. Decision D9. The model's own: the fault of an
operand of 256 and more (log entry 7), and the low byte of pc + 2 at pc 254 and 255 (log entry 9). -/
def Obligations.JneJumpsIffNotEqual : Prop :=
  (∀ (a : Nat) (ha : a < 8) (s : State), s.fl.getLsbD 0 = false →
    exec (.jne a) s = .next { s with pc := s.regs[a] }) ∧
  (∀ (a : Nat) (s : State), s.fl.getLsbD 0 = true →
    exec (.jne a) s = .next { s with pc := BitVec.ofNat 8 (s.pc.toNat + 2) }) ∧
  (∀ (a : Nat) (s : State), s.fl.getLsbD 0 = false → a > 7 →
    exec (.jne a) s = .next { s with fault := some ⟨2, BitVec.ofNat 9 a, s.pc⟩ })

/-! ### Frames: what the execute phase of every instruction leaves unchanged -/

/-- The register check of every instruction (60_exceptions.md sections 1 and 4): if a register operand it accesses is above 7,
the first such one is recorded and NOTHING else changes; if none is, the instruction completes and leaves the fault record
alone. The record and the preciseness are the spec's decisions D11 and D12, the access rule of JEQ and JNE D9. For an operand of
256 and more, no encoding, the fault with its number cut to nine bits is the model's own (log entry 7). -/
def Obligations.RegisterOperandIsCheckedBeforeAnyWrite : Prop :=
  ∀ (i : Instr) (s : State),
    (∀ r : Nat, (accessedRegs (s.fl.getLsbD 0) i).find? (fun r => decide (7 < r)) = some r →
      exec i s = .next { s with fault := some ⟨2, BitVec.ofNat 9 r, s.pc⟩ }) ∧
    ((∀ r ∈ accessedRegs (s.fl.getLsbD 0) i, r ≤ 7) →
      ∃ t : State, exec i s = .next t ∧ t.fault = s.fault)

/-- Register frame of all thirteen instructions (10_state.md section 2, the table of reads and writes): a register that the
table does not list as written by the instruction keeps its value. It covers destinations (ADD, MUL, LDI, POP: a) and the
stack pointer (PUSH, POP, CALL, RET: 7). The table is the spec's own inference from the instruction rules. -/
def Obligations.OnlyListedRegistersChange : Prop :=
  ∀ (i : Instr) (s t : State), exec i s = .next t →
    ∀ (r : Nat) (hr : r < 8), r ∉ writtenRegs i → t.regs[r] = s.regs[r]

/-- Flag frame, rule R27 whole: an instruction that is not CMP leaves the whole FL byte; a CMP that completes replaces it,
whatever it was, with exactly one of the three one-hot bytes. -/
def Obligations.OnlyCmpWritesFl : Prop :=
  (∀ (i : Instr) (s t : State), (∀ a b : Nat, i ≠ .cmp a b) → exec i s = .next t → t.fl = s.fl) ∧
  (∀ (a b : Nat) (s : State), a < 8 → b < 8 →
    ∃ t : State, exec (.cmp a b) s = .next t ∧
      (t.fl = 0b00000001#8 ∨ t.fl = 0b00000010#8 ∨ t.fl = 0b00000100#8) ∧
      ∀ f : Byte, exec (.cmp a b) { s with fl := f } = .next t)

/-- Halt flag, rule R30 whole: false initially; set by HLT and by no other instruction; cleared by none; once it is set no
step executes an instruction, so every step answers a stop. -/
def Obligations.OnlyHltSetsTheHaltFlag : Prop :=
  (∀ (g : Vector Byte 7) (m : Memory), (State.resetWith g m).halt = false) ∧
  (∀ s : State, ∃ t : State, exec .hlt s = .next t ∧ t.halt = true) ∧
  (∀ (i : Instr) (s t : State), exec i s = .next t → i ≠ .hlt → t.halt = s.halt) ∧
  (∀ s t : State, step s = .next t → s.halt = false) ∧
  (∀ s : State, s.halt = true → step s = .fault .halted ∨ step s = .fault .faulted)

/-- Output frame (10_state.md section 5): PRN appends exactly one byte, x[a], and every other instruction leaves the history.
The history is the spec's decision D13. -/
def Obligations.OnlyPrnAppendsOutput : Prop :=
  (∀ (i : Instr) (s t : State), (∀ a : Nat, i ≠ .prn a) → exec i s = .next t → t.out = s.out) ∧
  (∀ (a : Nat) (s t : State), exec (.prn a) s = .next t →
    (∀ ha : a < 8, t.out = s.out ++ [s.regs[a]]) ∧ (8 ≤ a → t.out = s.out))

/-- Memory frame (20_memory.md section 1, the table of accesses): every byte of memory reads as before after ADD, MUL, CMP,
LDI, PRN, HLT, POP, RET, JMP, JEQ, JNE; after PUSH and CALL every byte reads as before but the one at the decremented stack
pointer, the address the meaning stores to. The table is the spec's own inference; the modulus is its decision D4. -/
def Obligations.OnlyPushAndCallStore : Prop :=
  (∀ (i : Instr) (s t : State), (∀ a : Nat, i ≠ .push a) → (∀ a : Nat, i ≠ .call a) → exec i s = .next t →
    ∀ addr : Nat, Memory.read t.mem addr = Memory.read s.mem addr) ∧
  (∀ (i : Instr) (a : Nat) (s t : State), (i = .push a ∨ i = .call a) → exec i s = .next t →
    ∀ slot : Byte, spDec Config.spModulus s.sp = slot →
      ∀ addr : Nat, addr ≠ slot.toNat → Memory.read t.mem addr = Memory.read s.mem addr)

/-- pc frame (10_state.md section 3): in the execute phase only CALL, RET, JMP, JEQ and JNE write pc, and these are exactly the
instructions whose opcode has the sets-PC bit. The bit of each opcode is the spec's decision D1. -/
def Obligations.OnlyTheFiveJumpsWritePc : Prop :=
  (∀ (i : Instr) (s t : State), (decodeOpcode (opcodeOf i.insn)).pcIsSetByInstruction = false →
    exec i s = .next t → t.pc = s.pc) ∧
  (∀ i : Instr, (decodeOpcode (opcodeOf i.insn)).pcIsSetByInstruction = true ↔
    i.insn ∈ ([.call, .ret, .jmp, .jeq, .jne] : List Insn))

/-! ### What the execute phase cannot learn -/

/-- FL is read by JEQ and JNE alone, and only in bit E (10_state.md section 4): any other instruction does the same whatever
FL holds, FL itself apart, and JEQ and JNE do the same under any two FL bytes that agree in bit 0. The spec's own inference
from the instruction rules. -/
def Obligations.OnlyJeqAndJneReadFlAndOnlyBitE : Prop :=
  (∀ (i : Instr) (s : State) (f : Byte), (∀ a : Nat, i ≠ .jeq a) → (∀ a : Nat, i ≠ .jne a) →
    mapNext (fun t => { t with fl := 0 }) (exec i { s with fl := f }) =
      mapNext (fun t => { t with fl := 0 }) (exec i s)) ∧
  (∀ (i : Instr) (s : State) (f : Byte) (a : Nat), (i = .jeq a ∨ i = .jne a) →
    f.getLsbD 0 = s.fl.getLsbD 0 →
    exec i { s with fl := f } = mapNext (fun t => { t with fl := f }) (exec i s))

/-- Which registers an instruction reads (10_state.md section 2, the table of reads and writes): a register the table does not
list as read cannot change what the instruction does. If it is not written either, it passes through with its own value; if
it is a written one (the destination of LDI or POP), its old value is lost without a trace. The table is the spec's own
inference from the instruction rules. -/
def Obligations.OnlyListedRegistersAreRead : Prop :=
  ∀ (i : Instr) (s : State) (r : Nat) (hr : r < 8) (v : Byte), r ∉ readRegs i →
    (r ∉ writtenRegs i →
      exec i { s with regs := s.regs.set r v } =
        mapNext (fun t => { t with regs := t.regs.set r v }) (exec i s)) ∧
    (r ∈ writtenRegs i → exec i { s with regs := s.regs.set r v } = exec i s)

/-- Memory is data for the four stack instructions alone (20_memory.md section 1): every other instruction's execute phase does
the same whatever memory holds, and passes it through. The spec's own inference from the instruction rules. -/
def Obligations.OnlyStackInstructionsUseMemory : Prop :=
  ∀ (i : Instr) (s : State) (m : Memory),
    (∀ a : Nat, i ≠ .push a) → (∀ a : Nat, i ≠ .pop a) → (∀ a : Nat, i ≠ .call a) → i ≠ .ret →
    exec i { s with mem := m } = mapNext (fun t => { t with mem := m }) (exec i s)

/-- No step reads the output history (10_state.md section 5): two machines that differ in it alone take the same step, and emit
the same bytes after their own histories. The history is the spec's decision D13. -/
def Obligations.OutputHistoryIsNeverRead : Prop :=
  ∀ (s : State) (o : List Byte),
    (∀ r : Fault, step s = .fault r → step { s with out := o } = .fault r) ∧
    (∀ t : State, step s = .next t →
      ∃ emitted : List Byte, t.out = s.out ++ emitted ∧ emitted.length ≤ 1 ∧
        step { s with out := o } = .next { t with out := o ++ emitted })

/-! ### The step -/

/-- The step, rule R78 whole, case by case in the order of its checks: the operand fetch's two faults; the two decode faults;
otherwise exec of the decoded instruction, after which a raise ends the step, P = 1 leaves pc, and P = 0 advances it to
pc + N + 1 or faults there; and the step that ends with the halt flag set and no fault ends HALTED. -/
def Obligations.StepRunsTheDecodedInstruction : Prop :=
  ∀ (s : State) (op a b : Byte), s.runState = .running →
    Memory.read s.mem s.pc.toNat = op →
    (s.pc.toNat = 255 → step s = .next { s with fault := some ⟨1, 256, s.pc⟩ }) ∧
    (s.pc.toNat = 254 → step s = .next { s with fault := some ⟨1, 256, s.pc⟩ }) ∧
    (s.pc.toNat < 254 → Memory.read s.mem (s.pc.toNat + 1) = a → Memory.read s.mem (s.pc.toNat + 2) = b →
      ((decodeOpcode op).insn = .invalidAlu →
        step s = .next { s with fault := some ⟨3, BitVec.ofNat 9 op.toNat, s.pc⟩ }) ∧
      ((decodeOpcode op).insn = .invalidControl →
        step s = .next { s with fault := some ⟨4, BitVec.ofNat 9 op.toNat, s.pc⟩ }) ∧
      (∀ (i : Instr) (t : State) (rest : List Byte), decode [op, a, b] = .ok (i, rest) → exec i s = .next t →
        (t.fault ≠ none → step s = .next t) ∧
        (t.fault = none → (decodeOpcode op).pcIsSetByInstruction = true → step s = .next t) ∧
        (t.fault = none → (decodeOpcode op).pcIsSetByInstruction = false →
          (s.pc.toNat + (decodeOpcode op).operandCount.toNat + 1 ≤ 255 →
            step s = .next { t with
              pc := BitVec.ofNat 8 (s.pc.toNat + (decodeOpcode op).operandCount.toNat + 1) }) ∧
          (s.pc.toNat + (decodeOpcode op).operandCount.toNat + 1 > 255 →
            step s = .next { t with
              fault := some ⟨1, BitVec.ofNat 9 (s.pc.toNat + (decodeOpcode op).operandCount.toNat + 1), s.pc⟩ })))) ∧
    (∀ t : State, step s = .next t → t.halt = true → t.fault = none → t.runState = .halted)

/-- Rule R70 whole: a step is taken exactly in RUNNING, where it always answers a next state (nothing is refused); in HALTED
and FAULTED none exists. It reads no input but memory, being a function of the state alone: equal states step alike. -/
def Obligations.StepExistsExactlyWhenRunning : Prop :=
  ∀ s : State,
    (s.runState = .running ↔ ∃ t : State, step s = .next t) ∧
    (s.runState = .halted ↔ step s = .fault .halted) ∧
    (s.runState = .faulted ↔ step s = .fault .faulted)

/-- Rule R83 whole: an opcode with A = 1 that is not ADD's, MUL's or CMP's raises UnsupportedALU in the dispatch phase, before
anything is computed, and the three bytes are the only valid ALU opcodes. -/
def Obligations.UnsupportedAluOpcodeFaults : Prop :=
  (∀ (s : State) (op : Byte), s.runState = .running → s.pc.toNat ≤ 253 →
    Memory.read s.mem s.pc.toNat = op → op.getLsbD 5 = true → op ≠ 0xA0 → op ≠ 0xA2 → op ≠ 0xA7 →
    step s = .next { s with fault := some ⟨3, BitVec.ofNat 9 op.toNat, s.pc⟩ }) ∧
  (∀ op a b : Byte, op.getLsbD 5 = true →
    ((∃ i : Instr, decodeInstr op a b = .ok i) ↔ op = 0xA0 ∨ op = 0xA2 ∨ op = 0xA7))

/-- Rule R88 whole: an opcode with A = 0 that is none of the ten raises UnsupportedInstruction in the dispatch phase; an operand
position an instruction does not use is ignored; and no dispatcher instruction writes FL. -/
def Obligations.UnsupportedControlOpcodeFaults : Prop :=
  (∀ (s : State) (op : Byte), s.runState = .running → s.pc.toNat ≤ 253 →
    Memory.read s.mem s.pc.toNat = op → op.getLsbD 5 = false →
    op ∉ ([0x82, 0x47, 0x01, 0x45, 0x46, 0x50, 0x11, 0x54, 0x55, 0x56] : List Byte) →
    step s = .next { s with fault := some ⟨4, BitVec.ofNat 9 op.toNat, s.pc⟩ }) ∧
  (∀ op a b a' b' : Byte,
    ((decodeOpcode op).operandCount = 1 → decodeInstr op a b = decodeInstr op a b') ∧
    ((decodeOpcode op).operandCount = 0 → decodeInstr op a b = decodeInstr op a' b')) ∧
  (∀ (i : Instr) (s t : State), (decodeOpcode (opcodeOf i.insn)).isAluOp = false →
    exec i s = .next t → t.fl = s.fl)

/-- The operand fetch (40_execution_loop.md section 2): at 254 and 255 every opcode, valid or not, faults with address 256
before anything else, HLT and RET included; at or below 253 no step records a memory bounds fault except the advance of a
three-byte instruction at 253. Decisions D7 and D10; the limit to 253 is the spec's own inference. -/
def Obligations.OperandFetchFaultsAboveTheTop : Prop :=
  (∀ s : State, s.runState = .running → 254 ≤ s.pc.toNat →
    step s = .next { s with fault := some ⟨1, 256, s.pc⟩ }) ∧
  (∀ (s t : State) (r : FaultRecord), step s = .next t → t.fault = some r → r.code = 1 →
    r.info = 256 ∧
    (254 ≤ s.pc.toNat ∨
      (s.pc.toNat = 253 ∧ (decodeOpcode (Memory.read s.mem 253)).operandCount = 2 ∧
        (decodeOpcode (Memory.read s.mem 253)).pcIsSetByInstruction = false)))

/-- The advance (40_execution_loop.md section 2; 30_encoding.md section 6): a step of a P = 0 instruction that records no
fault leaves pc at pc + N + 1, the instruction's length further on, and never wraps. That an address above 255 faults
instead is the spec's decision D8. -/
def Obligations.AdvanceMovesPcByTheLength : Prop :=
  ∀ (s t : State), step s = .next t → t.fault = none →
    (decodeOpcode (Memory.read s.mem s.pc.toNat)).pcIsSetByInstruction = false →
    t.pc.toNat = s.pc.toNat + (decodeOpcode (Memory.read s.mem s.pc.toNat)).operandCount.toNat + 1

/-- Faults are precise (60_exceptions.md section 4): after a step that records a fault, the record names the pc of the faulting
instruction, pc still holds it, and either nothing else differs from the state before the step, or the fault is the
advance's and everything else is what the execute phase of the instruction left. Decisions D11 and D12. -/
def Obligations.FaultsArePrecise : Prop :=
  ∀ (s t : State) (r : FaultRecord), step s = .next t → t.fault = some r →
    r.faultPc = s.pc ∧ t.pc = s.pc ∧ t.runState = .faulted ∧
    (t = { s with fault := some r } ∨
      (r.code = 1 ∧ ∃ (i : Instr) (u : State), s.current = some i ∧ exec i s = .next u ∧
        u.fault = none ∧ t = { u with fault := some r }))

/-- Rule R110 whole: FAULTED is terminal, however many steps are asked for, so the first record is never overwritten; and reset
leaves it. -/
def Obligations.FaultedIsTerminalUntilReset : Prop :=
  (∀ (s : State) (n : Nat), s.fault ≠ none → core.run (n + 1) s = .fault .faulted) ∧
  (∀ s t : State, step s = .next t → s.fault = none) ∧
  (∀ (s : State) (g : Vector Byte 7), (s.assertReset g).runState = .running ∧ (s.assertReset g).fault = none)

/-! ### Reset, launch and the invariant -/

/-- Reset (70_reset_and_hazards.md section 1): asserted in any state, for any `init_gpr`, it gives the listed values, the
registers R0..R6 the parameter's, and keeps every byte of memory; the run state is RUNNING. That reset keeps memory and may
come in any run state is the spec's decision D15; `init_gpr` is its OPEN parameter D5. -/
def Obligations.ResetValues : Prop :=
  ∀ (s : State) (g : Vector Byte 7),
    (s.assertReset g).pc = 0 ∧ (s.assertReset g).regs[7] = 255 ∧ (s.assertReset g).fl = 0 ∧
    (s.assertReset g).halt = false ∧ (s.assertReset g).fault = none ∧ (s.assertReset g).out = [] ∧
    (∀ (r : Nat) (hr : r < 7), (s.assertReset g).regs[r] = g[r]) ∧
    (∀ addr : Nat, Memory.read (s.assertReset g).mem addr = Memory.read s.mem addr) ∧
    (s.assertReset g).runState = .running

/-- Launch (70_reset_and_hazards.md section 2): a program of 1 to 256 bytes, and no other, has a launch state; it holds the
program from address 0 in order, `init_mem` above it, and the reset values; and it meets the invariant. For every `init_gpr`
and `init_mem`, the spec's OPEN parameters D5 and D6; the refusal of other lengths is its decision D23. -/
def Obligations.LaunchLoadsTheProgram : Prop :=
  ∀ (g : Vector Byte 7) (f : Nat → Byte) (p : List Byte),
    ((State.launch g f p).isSome = true ↔ 1 ≤ p.length ∧ p.length ≤ 256) ∧
    (∀ s : State, State.launch g f p = some s →
      (∀ k : Nat, k < 256 → Memory.read s.mem k = if h : k < p.length then p[k] else f k) ∧
      s = State.resetWith g s.mem ∧ s.Inv)

/-- The invariant holds at reset: at `State.reset`, and after reset with any `init_gpr` over any canonical memory. The
concrete registers and memory of `State.reset` are the model's choice (log entries 1 and 2). -/
def Obligations.InvariantHoldsAtReset : Prop :=
  State.reset.Inv ∧ ∀ (g : Vector Byte 7) (m : Memory), Memory.wf m → (State.resetWith g m).Inv

/-- Every step keeps the invariant, from every state that has it, reached by a run or not: memory stays canonical, FL stays 0
or one-hot (10_state.md section 4), a halted machine stands right after a HLT with no fault recorded, and a fault record is
one that 60_exceptions.md section 1 lists, taken at the pc the machine still holds. So does every step at either
stack-pointer modulus. -/
def Obligations.EveryStepKeepsTheInvariant : Prop :=
  (∀ s t : State, s.Inv → step s = .next t → t.Inv) ∧
  (∀ (modulus : Nat) (s t : State), modulus = 255 ∨ modulus = 256 → s.Inv → stepAt modulus s = .next t → t.Inv)

/-! ### Memory and the stack -/

/-- Rule R44 whole: an access is one byte, a read returns the cell's current value, and a write changes its one cell and
no other. -/
def Obligations.WriteChangesItsOneCell : Prop :=
  ∀ (m : Memory) (addr : Nat) (v : Byte),
    Memory.read (Memory.write m addr v) addr = v ∧
    ∀ other : Nat, other ≠ addr → Memory.read (Memory.write m addr v) other = Memory.read m other

/-- The canonical form (the model's own, log entry 2) makes equal memories equal data: two canonical memories that read alike
at every address of the address space are the same list of cells. -/
def Obligations.CanonicalMemoryIsDeterminedByItsBytes : Prop :=
  ∀ m m' : Memory, Memory.wf m → Memory.wf m' →
    (∀ addr : Nat, addr < 256 → Memory.read m addr = Memory.read m' addr) → m = m'

/-- Stack-pointer arithmetic (42_control_dispatcher.md section 1) under both moduli: the remainder formulas in exact integers,
each result a byte value below the modulus. The moduli and the value 256 are the spec's decision D4. -/
def Obligations.StackPointerArithmetic : Prop :=
  Config.spModulus = 256 ∧
  ∀ (modulus : Nat) (sp : Byte), modulus = 255 ∨ modulus = 256 →
    ((spDec modulus sp).toNat : Int) = ((sp.toNat : Int) - 1) % (modulus : Int) ∧
    ((spInc modulus sp).toNat : Int) = ((sp.toNat : Int) + 1) % (modulus : Int) ∧
    (spDec modulus sp).toNat < modulus ∧ (spInc modulus sp).toNat < modulus

/-- PUSH then POP (42_control_dispatcher.md section 3): for registers other than R7 the popped register takes the pushed value
under either modulus; SP comes back under modulus 256 always, and under 255 exactly when it was not 255. The spec's own
inference from the instruction rules and decision D4. -/
def Obligations.PushThenPopRestores : Prop :=
  ∀ (modulus a c : Nat) (ha : a < 7) (hc : c < 7) (s : State), modulus = 255 ∨ modulus = 256 →
    ∃ t u : State, execPushWith modulus a s = .next t ∧ execPopWith modulus c t = .next u ∧
      u.regs[c] = s.regs[a] ∧ (u.regs[7] = s.regs[7] ↔ modulus = 256 ∨ s.regs[7] ≠ 255)

/-- CALL then RET (42_control_dispatcher.md section 3): after a CALL, a RET taken in ANY state whose SP and whose byte at SP are
as the CALL left them goes to the CALL's pc + 2, under either modulus; under 256 SP is also what it was before the CALL. The
spec's own inference and decision D4. At pc 254 and 255, where no step runs a CALL, the low byte of pc + 2 is the model's
own (log entry 9). -/
def Obligations.CallThenRetResumes : Prop :=
  ∀ (modulus a : Nat) (s t u : State), a < 8 → modulus = 255 ∨ modulus = 256 →
    execCallWith modulus a s = .next t →
    u.regs[7] = t.regs[7] → Memory.read u.mem t.regs[7].toNat = Memory.read t.mem t.regs[7].toNat →
    ∃ v : State, execRetWith modulus u = .next v ∧ v.pc = BitVec.ofNat 8 (s.pc.toNat + 2) ∧
      (modulus = 256 → v.regs[7] = s.regs[7])

/-- The source's property E1 (95_test_vectors.md section 1): LDI r,v then PRN r emits exactly v, for every register and every
byte. -/
def Obligations.LdiThenPrnEmitsTheLiteral : Prop :=
  ∀ (r : Nat) (v : Byte) (s : State), r < 8 →
    ∃ t u : State, exec (.ldi r v) s = .next t ∧ exec (.prn r) t = .next u ∧ u.out = s.out ++ [v]

/-- The source's property E4 (95_test_vectors.md section 1): after CMP of two registers exactly one of E, G, L is set,
consistent with their integer comparison, and then JEQ is taken iff they were equal and JNE iff they were not; the
one not taken goes to pc + 2, whose low byte at pc 254 and 255 is the model's own (log entry 9). -/
def Obligations.CompareDecidesTheBranches : Prop :=
  ∀ (a b c : Nat) (ha : a < 8) (hb : b < 8) (hc : c < 8) (s : State),
    ∃ t : State, exec (.cmp a b) s = .next t ∧
      t.flE = decide (s.regs[a].toNat = s.regs[b].toNat) ∧
      t.flG = decide (s.regs[a].toNat > s.regs[b].toNat) ∧
      t.flL = decide (s.regs[a].toNat < s.regs[b].toNat) ∧
      exec (.jeq c) t = .next { t with
        pc := if s.regs[a] = s.regs[b] then s.regs[c] else BitVec.ofNat 8 (s.pc.toNat + 2) } ∧
      exec (.jne c) t = .next { t with
        pc := if s.regs[a] = s.regs[b] then BitVec.ofNat 8 (s.pc.toNat + 2) else s.regs[c] }

/-- A run need not end (40_execution_loop.md section 4): from a RUNNING state on a JMP whose register holds its own address,
every number of steps leads back to the same state, and no step limit stops it. That there is no watchdog is the spec's
decision D20. -/
def Obligations.JumpToSelfRunsForEver : Prop :=
  ∀ (r : Nat) (hr : r < 8) (s : State), s.runState = .running → s.pc.toNat ≤ 253 →
    Memory.read s.mem s.pc.toNat = 0x54#8 → Memory.read s.mem (s.pc.toNat + 1) = BitVec.ofNat 8 r →
    s.regs[r] = s.pc → ∀ n : Nat, core.run n s = .next s

/-- A store is seen by the next fetch (20_memory.md section 4): after a step that stores a byte, that address holds it, and the
very next fetch reads it wherever it takes one of its three bytes from that address. Immediate visibility is the spec's
decision D16. -/
def Obligations.StoreIsSeenByTheNextFetch : Prop :=
  ∀ (s t : State) (addr v : Byte), step s = .next t → Transfer.write addr v ∈ s.transfers →
    Memory.read t.mem addr.toNat = v ∧
    ∀ op a b : Byte, t.fetch = .ok (op, a, b) →
      (addr.toNat = t.pc.toNat → op = v) ∧ (addr.toNat = t.pc.toNat + 1 → a = v) ∧
      (addr.toNat = t.pc.toNat + 2 → b = v)

/-! ### The machine at either stack-pointer modulus -/

/-- `SP_MODULUS` is an argument (00_scope.md section 4): at the spec's value 256 the machine that takes it is `exec`, `step` and
`core`, from the same reset state at every value. The value is the spec's decision D4 (log entry 5). -/
def Obligations.TheMachineIsTheOneAtModulus256 : Prop :=
  (∀ (i : Instr) (s : State), execAt 256 i s = exec i s) ∧ (∀ s : State, stepAt 256 s = step s) ∧
  coreAt 256 = core ∧ (∀ modulus : Nat, (coreAt modulus).reset = State.reset)

/-- The four stack instructions at either modulus (42_control_dispatcher.md sections 1 and 2): the whole next state of each,
in terms of sp_dec and sp_inc under that modulus. Decisions D4 and D21; the low byte of CALL's pc + 2 at pc 254 and 255 is
the model's own (log entry 9). -/
def Obligations.StackInstructionsAtEitherModulus : Prop :=
  ∀ modulus : Nat, modulus = 255 ∨ modulus = 256 → ∀ s : State,
    (∀ (a : Nat) (ha : a < 8),
      execAt modulus (.push a) s =
        .next { s with
          regs := s.regs.set 7 (spDec modulus s.regs[7]),
          mem := Memory.write s.mem (spDec modulus s.regs[7]).toNat ((s.regs.set 7 (spDec modulus s.regs[7]))[a]) } ∧
      execAt modulus (.pop a) s =
        .next { s with
          regs := (s.regs.set a (Memory.read s.mem s.regs[7].toNat)).set 7
            (spInc modulus (s.regs.set a (Memory.read s.mem s.regs[7].toNat))[7]) } ∧
      execAt modulus (.call a) s =
        .next { s with
          regs := s.regs.set 7 (spDec modulus s.regs[7]),
          mem := Memory.write s.mem (spDec modulus s.regs[7]).toNat (BitVec.ofNat 8 (s.pc.toNat + 2)),
          pc := (s.regs.set 7 (spDec modulus s.regs[7]))[a] }) ∧
    execAt modulus .ret s =
      .next { s with
        pc := Memory.read s.mem s.regs[7].toNat,
        regs := s.regs.set 7 (spInc modulus s.regs[7]) }

/-- A step at either modulus (40_execution_loop.md sections 1 to 3): it exists exactly in RUNNING; the operand fetch and the
dispatch fault as at 256, whatever the modulus; and otherwise it is the execute phase of the decoded instruction at that
modulus, then the step's advance. Decision D4; the faults rest on D7, D10, D11 and D12. -/
def Obligations.StepAtEitherModulusRunsTheInstruction : Prop :=
  ∀ modulus : Nat, modulus = 255 ∨ modulus = 256 → ∀ s : State,
    (s.runState = .running ↔ ∃ t : State, stepAt modulus s = .next t) ∧
    (s.runState = .halted ↔ stepAt modulus s = .fault .halted) ∧
    (s.runState = .faulted ↔ stepAt modulus s = .fault .faulted) ∧
    (s.current = none → stepAt modulus s = step s) ∧
    (∀ i : Instr, s.current = some i →
      ∃ t : State, execAt modulus i s = .next t ∧
        stepAt modulus s = .next (t.finish (decodeOpcode (Memory.read s.mem s.pc.toNat))))

/-- Where the modulus matters (42_control_dispatcher.md section 1): an instruction that does not use the stack does the same
under every modulus; PUSH and CALL differ between 255 and 256 only at SP 0, and RET and POP only where the SP they increment
is 254 or 255. The spec's own inference from the formulas; decision D4. -/
def Obligations.ModuliDifferOnlyWhereTheStackPointerWraps : Prop :=
  (∀ (modulus : Nat) (i : Instr) (s : State),
    (∀ a : Nat, i ≠ .push a) → (∀ a : Nat, i ≠ .pop a) → (∀ a : Nat, i ≠ .call a) → i ≠ .ret →
    execAt modulus i s = exec i s) ∧
  (∀ (a : Nat) (s : State), s.sp ≠ 0 →
    execAt 255 (.push a) s = exec (.push a) s ∧ execAt 255 (.call a) s = exec (.call a) s) ∧
  (∀ s : State, s.sp.toNat ≤ 253 → execAt 255 .ret s = exec .ret s) ∧
  (∀ (a : Nat) (s : State), a ≠ 7 → s.sp.toNat ≤ 253 → execAt 255 (.pop a) s = exec (.pop a) s) ∧
  (∀ s : State, (s.readByte s.sp).toNat ≤ 253 → execAt 255 (.pop 7) s = exec (.pop 7) s)

/-- Under modulus 255 no push ever writes address 255 (42_control_dispatcher.md section 1): no access of a step stores there,
and the byte at 255 is the same after every step. The spec's own inference; decision D4. -/
def Obligations.NoStepAtModulus255WritesAddress255 : Prop :=
  ∀ s t : State, stepAt 255 s = .next t →
    (∀ addr v : Byte, Transfer.write addr v ∈ s.transfersAt 255 → addr.toNat ≤ 254) ∧
    Memory.read t.mem 255 = Memory.read s.mem 255

/-! ### The ports -/

/-- The memory port (60_exceptions.md section 6; 20_memory.md section 1): the accesses of a step account for all it does to
memory, each read delivers the byte memory held before the step, and a step makes at most one data access after its at most
three fetch reads; for the machine at either stack-pointer modulus, of which `step` is the one at 256. The port is the
spec's decision D14; the order of the accesses is log entry 8. -/
def Obligations.TransfersAccountForMemory : Prop :=
  (∀ s : State, step s = stepAt 256 s ∧ s.transfers = s.transfersAt 256) ∧
  ∀ (modulus : Nat) (s t : State), modulus = 255 ∨ modulus = 256 → stepAt modulus s = .next t →
    t.mem = (s.transfersAt modulus).foldl Transfer.apply s.mem ∧
    (∀ addr data : Byte, Transfer.read addr data ∈ s.transfersAt modulus → data = Memory.read s.mem addr.toNat) ∧
    (s.transfersAt modulus).length ≤ 4

/-- The output port (60_exceptions.md section 6): a step's output history grows by exactly the byte the port carries in that
step, and by nothing when `out_valid` is 0. Decisions D13 and D14. -/
def Obligations.OutPortCarriesTheEmittedByte : Prop :=
  ∀ s t : State, step s = .next t → t.out = s.out ++ s.outPort.toList

/-- The status ports (60_exceptions.md section 6): after a step, `faulted` is 1 exactly if that step raised a fault, the fault
outputs are then the record's, `halted` is 1 exactly if it ran HLT, and the two are never both 1. Decisions D11, D12 and
D14. -/
def Obligations.StatusPortsFollowTheStep : Prop :=
  ∀ s t : State, step s = .next t →
    (t.statusPorts.faulted = true ↔ t.fault ≠ none) ∧
    (∀ r : FaultRecord, t.fault = some r →
      t.statusPorts.faultCode = some r.code ∧ t.statusPorts.faultInfo = some r.info ∧
      t.statusPorts.faultPc = some s.pc) ∧
    (t.statusPorts.halted = true ↔ s.current = some .hlt) ∧
    ¬(t.statusPorts.halted = true ∧ t.statusPorts.faulted = true)
end

