-- ==== Sys2Proof/Laws/Decode.lean ====
section
/-! SUPPORT. The opcode table read in both directions, and one lemma per function of the decoder. -/

namespace Sys2Proof

/-- The instructions of the opcode map: every `insn` but the two invalid kinds. -/
theorem Instr.insn_valid (i : Instr) : i.insn ≠ .invalidAlu ∧ i.insn ≠ .invalidControl := by
  cases i <;> simp [Instr.insn]

/-- The byte the table gives a mnemonic selects that mnemonic. -/
theorem selectInsn_opcodeOf (m : Insn) (ha : m ≠ .invalidAlu) (hc : m ≠ .invalidControl) :
    selectInsn (opcodeOf m) = m := by
  cases m <;> first | contradiction | decide

theorem selectInsn_insn (i : Instr) : selectInsn (opcodeOf i.insn) = i.insn :=
  selectInsn_opcodeOf _ i.insn_valid.1 i.insn_valid.2

/-- A byte that selects a mnemonic is the byte the table gives it. -/
theorem opcodeOf_selectInsn (op : Byte) (ha : selectInsn op ≠ .invalidAlu)
    (hc : selectInsn op ≠ .invalidControl) : opcodeOf (selectInsn op) = op := by
  revert op
  decide

/-- A decoded instruction has the mnemonic its opcode byte selects. -/
theorem insn_of_decodeInstr {op a b : Byte} {i : Instr} (h : decodeInstr op a b = .ok i) :
    i.insn = selectInsn op := by
  unfold decodeInstr at h
  split at h <;> cases h <;> simp_all [Instr.insn]

/-- The decoder rejects exactly the two invalid kinds, each by its name. -/
theorem decodeInstr_error_iff (op a b : Byte) (r : OpcodeReject) :
    decodeInstr op a b = .error r ↔
      (selectInsn op = .invalidAlu ∧ r = .unsupportedALU op) ∨
      (selectInsn op = .invalidControl ∧ r = .unsupportedInstruction op) := by
  unfold decodeInstr
  cases selectInsn op <;> simp [eq_comm]

@[simp] theorem lowByte_toNat (b : Byte) : lowByte b.toNat = b := by simp [lowByte]

theorem toNat_lowByte (n : Nat) : (lowByte n).toNat = n % 256 := by simp [lowByte]

/-- A register operand that fits survives its operand byte. -/
theorem toNat_lowByte_of_lt {n : Nat} (h : n < 256) : (lowByte n).toNat = n := by
  rw [toNat_lowByte, Nat.mod_eq_of_lt h]

theorem decode_nil : decode [] = .error .truncated := rfl

theorem decode_cons (op : Byte) (rest : List Byte) :
    decode (op :: rest) =
      match decodeInstr op (rest.getD 0 0) (rest.getD 1 0) with
      | .error r => .error (.opcode r)
      | .ok i =>
        if rest.length < (decodeOpcode op).operandCount.toNat then .error .truncated
        else .ok (i, rest.drop (decodeOpcode op).operandCount.toNat) := rfl

/-- With all three bytes present, decoding the sequence is decoding the instruction. -/
theorem decode_three (op a b : Byte) (i : Instr) (rest : List Byte) :
    decode [op, a, b] = .ok (i, rest) → decodeInstr op a b = .ok i := by
  rw [decode_cons]
  simp only [List.getD_cons_zero, List.getD_cons_succ]
  split
  · simp
  · intro h
    split at h
    · cases h
    · simp_all

/-- The operand count of each opcode of the table (R58). -/
theorem operandCount_opcodeOf (m : Insn) :
    (decodeOpcode (opcodeOf m)).operandCount.toNat =
      match m with
      | .add | .mul | .cmp | .ldi => 2
      | .prn | .push | .pop | .call | .jmp | .jeq | .jne => 1
      | .hlt | .ret | .invalidAlu | .invalidControl => 0 := by
  cases m <;> decide

/-- The sets-PC bit of each opcode of the table (R58). -/
theorem pcIsSet_opcodeOf (m : Insn) :
    (decodeOpcode (opcodeOf m)).pcIsSetByInstruction =
      match m with
      | .call | .ret | .jmp | .jeq | .jne => true
      | .add | .mul | .cmp | .ldi | .prn | .hlt | .push | .pop | .invalidAlu | .invalidControl => false := by
  cases m <;> decide

/-- The operand count of a valid opcode is at most two (R55). -/
theorem operandCount_le (op : Byte) (ha : selectInsn op ≠ .invalidAlu) (hc : selectInsn op ≠ .invalidControl) :
    (decodeOpcode op).operandCount.toNat ≤ 2 := by
  revert op
  decide

end Sys2Proof
end

