-- ==== Sys2Proof/Laws/Memory.lean ====
section
/-! SUPPORT. What each memory operation does to the byte read at an address, and that each keeps the canonical form. -/

namespace Sys2Proof.Machine

@[simp] theorem Memory.read_nil (addr : Nat) : Memory.read [] addr = Config.unlisted addr := rfl

@[simp] theorem Memory.read_cons (k : Nat) (v : Byte) (rest : Memory) (addr : Nat) :
    Memory.read ((k, v) :: rest) addr = if k = addr then v else Memory.read rest addr := rfl

/-! ### Reading after an update -/

/-- The erased address reads as unlisted, every other as before. -/
theorem Memory.read_erase (m : Memory) (addr other : Nat) :
    Memory.read (Memory.erase m addr) other =
      if other = addr then Config.unlisted addr else Memory.read m other := by
  induction m with
  | nil => by_cases h : other = addr <;> simp [Memory.erase, h]
  | cons c rest ih =>
    obtain ⟨k, v⟩ := c
    simp only [Memory.erase] at ih
    by_cases hk : k = addr
    · subst hk
      by_cases ho : other = k
      · subst ho; simpa [Memory.erase] using ih
      · simp [Memory.erase, ih, ho, Ne.symm ho]
    · by_cases ho : other = addr
      · subst ho
        simp [Memory.erase, hk, ih]
      · simp [Memory.erase, hk, ih, ho]

/-- Inserting a cell changes what its own address reads as, whenever no cell of that address was listed. -/
theorem Memory.read_insert (m : Memory) (addr : Nat) (v : Byte) (other : Nat)
    (h : ∀ c ∈ m, c.1 ≠ addr) :
    Memory.read (Memory.insert m addr v) other = if other = addr then v else Memory.read m other := by
  induction m with
  | nil => simp [Memory.insert, eq_comm]
  | cons c rest ih =>
    obtain ⟨k, w⟩ := c
    have hk : k ≠ addr := h (k, w) (by simp)
    have ih := ih fun c hc => h c (by simp [hc])
    by_cases ho : other = addr
    · subst ho
      by_cases hlt : other < k <;> simp [Memory.insert, hlt, hk, ih]
    · by_cases hlt : addr < k <;> simp [Memory.insert, hlt, ih, ho, Ne.symm ho]

theorem Memory.not_listed_erase (m : Memory) (addr : Nat) : ∀ c ∈ Memory.erase m addr, c.1 ≠ addr := by
  intro c hc
  simpa using (List.mem_filter.mp hc).2

/-- A write changes the byte at its own address and no other. -/
theorem Memory.read_write (m : Memory) (addr : Nat) (v : Byte) (other : Nat) :
    Memory.read (Memory.write m addr v) other = if other = addr then v else Memory.read m other := by
  unfold Memory.write
  split
  · subst v; exact Memory.read_erase m addr other
  · rw [Memory.read_insert _ _ _ _ (Memory.not_listed_erase m addr), Memory.read_erase]
    split <;> rfl

/-- The bytes of `Memory.ofFn`: the function's inside the address space, unlisted ones outside. -/
theorem Memory.read_ofFn (f : Nat → Byte) (addr : Nat) :
    Memory.read (Memory.ofFn f) addr = if addr < Config.memSize then f addr else Config.unlisted addr := by
  have key : ∀ addrs : List Nat,
      Memory.read (addrs.filterMap fun k => if f k = Config.unlisted k then none else some (k, f k)) addr =
        if addr ∈ addrs then f addr else Config.unlisted addr := by
    intro addrs
    induction addrs with
    | nil => simp
    | cons k rest ih =>
      by_cases hk : f k = Config.unlisted k
      · rw [List.filterMap_cons_none (by simp [hk]), ih]
        by_cases h : addr = k
        · subst h; simp [hk]
        · simp [h]
      · rw [List.filterMap_cons_some (b := (k, f k)) (by simp [hk]), Memory.read_cons, ih]
        by_cases h : k = addr
        · subst h; simp
        · simp [h, Ne.symm h]
  simpa [Memory.ofFn] using key (List.range Config.memSize)

/-! ### The canonical form -/

theorem Memory.wf_nil : Memory.wf [] := ⟨List.Pairwise.nil, fun _ h => by cases h⟩

theorem Memory.wf_erase (m : Memory) (addr : Nat) (h : Memory.wf m) : Memory.wf (Memory.erase m addr) :=
  ⟨h.1.filter _, fun c hc => h.2 c (List.mem_filter.mp hc).1⟩

/-- The cells after an insertion are the old ones and the new one. -/
theorem Memory.mem_insert (m : Memory) (addr : Nat) (v : Byte) (c : Host.Cell) :
    c ∈ Memory.insert m addr v ↔ c = (addr, v) ∨ c ∈ m := by
  induction m with
  | nil => simp [Memory.insert]
  | cons d rest ih =>
    obtain ⟨k, w⟩ := d
    by_cases hlt : addr < k
    · simp [Memory.insert, hlt]
    · simp only [Memory.insert, hlt, if_false, List.mem_cons, ih]
      tauto

theorem Memory.pairwise_insert (m : Memory) (addr : Nat) (v : Byte)
    (hm : m.Pairwise fun c d => c.1 < d.1) (h : ∀ c ∈ m, c.1 ≠ addr) :
    (Memory.insert m addr v).Pairwise fun c d => c.1 < d.1 := by
  induction m with
  | nil => simp [Memory.insert]
  | cons d rest ih =>
    obtain ⟨k, w⟩ := d
    obtain ⟨hhead, htail⟩ := List.pairwise_cons.mp hm
    have hk : k ≠ addr := h (k, w) (by simp)
    by_cases hlt : addr < k
    · simp only [Memory.insert, hlt, if_true]
      refine List.pairwise_cons.mpr ⟨?_, hm⟩
      intro c hc
      rcases List.mem_cons.mp hc with rfl | hc
      · exact hlt
      · exact hlt.trans (hhead c hc)
    · simp only [Memory.insert, hlt, if_false]
      refine List.pairwise_cons.mpr ⟨?_, ih htail fun c hc => h c (by simp [hc])⟩
      intro c hc
      rcases (Memory.mem_insert rest addr v c).mp hc with rfl | hc
      · exact lt_of_le_of_ne (not_lt.mp hlt) hk
      · exact hhead c hc

/-- A write inside the address space keeps the canonical form. -/
theorem Memory.wf_write (m : Memory) (addr : Nat) (v : Byte) (h : Memory.wf m)
    (haddr : addr < Config.memSize) : Memory.wf (Memory.write m addr v) := by
  unfold Memory.write
  split
  · exact Memory.wf_erase m addr h
  · have he := Memory.wf_erase m addr h
    refine ⟨Memory.pairwise_insert _ addr v he.1 (Memory.not_listed_erase m addr), ?_⟩
    intro c hc
    rcases (Memory.mem_insert _ addr v c).mp hc with rfl | hc
    · exact ⟨haddr, ‹_›⟩
    · exact he.2 c hc

theorem Memory.wf_place (m : Memory) (addr : Nat) (bytes : List Byte) (h : Memory.wf m) :
    Memory.wf (Memory.place m addr bytes) := by
  induction bytes generalizing m addr with
  | nil => exact h
  | cons v vs ih =>
    apply ih
    split
    · exact Memory.wf_write m addr v h ‹_›
    · exact h

theorem Memory.wf_ofFn (f : Nat → Byte) : Memory.wf (Memory.ofFn f) := by
  constructor
  · unfold Memory.ofFn
    rw [List.pairwise_filterMap]
    refine (List.pairwise_lt_range (n := Config.memSize)).imp ?_
    intro a b hab c hc d hd
    split at hc <;> simp_all
    rw [← hc, ← hd.2]; exact hab
  · intro c hc
    obtain ⟨k, hk, hc⟩ := List.mem_filterMap.mp hc
    split at hc
    · cases hc
    · cases hc
      exact ⟨List.mem_range.mp hk, ‹_›⟩

end Sys2Proof.Machine
end

