-- ==== Sys2Proof/Laws/State.lean ====
section
/-! SUPPORT. One lemma per field of State and per update of it, so that no proof unfolds a record update; what reading a
register after an update gives; and the fields of a reset state. -/

namespace Sys2Proof.Machine

/-! ### State.setReg -/

@[simp] theorem State.setReg_regs (s : State) (i : Fin 8) (v : Byte) : (s.setReg i v).regs = s.regs.set i.val v i.isLt := rfl
@[simp] theorem State.setReg_pc (s : State) (i : Fin 8) (v : Byte) : (s.setReg i v).pc = s.pc := rfl
@[simp] theorem State.setReg_fl (s : State) (i : Fin 8) (v : Byte) : (s.setReg i v).fl = s.fl := rfl
@[simp] theorem State.setReg_halt (s : State) (i : Fin 8) (v : Byte) : (s.setReg i v).halt = s.halt := rfl
@[simp] theorem State.setReg_fault (s : State) (i : Fin 8) (v : Byte) : (s.setReg i v).fault = s.fault := rfl
@[simp] theorem State.setReg_out (s : State) (i : Fin 8) (v : Byte) : (s.setReg i v).out = s.out := rfl
@[simp] theorem State.setReg_mem (s : State) (i : Fin 8) (v : Byte) : (s.setReg i v).mem = s.mem := rfl

/-! ### State.setSp -/

@[simp] theorem State.setSp_regs (s : State) (v : Byte) : (s.setSp v).regs = s.regs.set 7 v := rfl
@[simp] theorem State.setSp_pc (s : State) (v : Byte) : (s.setSp v).pc = s.pc := rfl
@[simp] theorem State.setSp_fl (s : State) (v : Byte) : (s.setSp v).fl = s.fl := rfl
@[simp] theorem State.setSp_halt (s : State) (v : Byte) : (s.setSp v).halt = s.halt := rfl
@[simp] theorem State.setSp_fault (s : State) (v : Byte) : (s.setSp v).fault = s.fault := rfl
@[simp] theorem State.setSp_out (s : State) (v : Byte) : (s.setSp v).out = s.out := rfl
@[simp] theorem State.setSp_mem (s : State) (v : Byte) : (s.setSp v).mem = s.mem := rfl

/-! ### State.setPc -/

@[simp] theorem State.setPc_regs (s : State) (v : Byte) : (s.setPc v).regs = s.regs := rfl
@[simp] theorem State.setPc_pc (s : State) (v : Byte) : (s.setPc v).pc = v := rfl
@[simp] theorem State.setPc_fl (s : State) (v : Byte) : (s.setPc v).fl = s.fl := rfl
@[simp] theorem State.setPc_halt (s : State) (v : Byte) : (s.setPc v).halt = s.halt := rfl
@[simp] theorem State.setPc_fault (s : State) (v : Byte) : (s.setPc v).fault = s.fault := rfl
@[simp] theorem State.setPc_out (s : State) (v : Byte) : (s.setPc v).out = s.out := rfl
@[simp] theorem State.setPc_mem (s : State) (v : Byte) : (s.setPc v).mem = s.mem := rfl

/-! ### State.setFl -/

@[simp] theorem State.setFl_regs (s : State) (v : Byte) : (s.setFl v).regs = s.regs := rfl
@[simp] theorem State.setFl_pc (s : State) (v : Byte) : (s.setFl v).pc = s.pc := rfl
@[simp] theorem State.setFl_fl (s : State) (v : Byte) : (s.setFl v).fl = v := rfl
@[simp] theorem State.setFl_halt (s : State) (v : Byte) : (s.setFl v).halt = s.halt := rfl
@[simp] theorem State.setFl_fault (s : State) (v : Byte) : (s.setFl v).fault = s.fault := rfl
@[simp] theorem State.setFl_out (s : State) (v : Byte) : (s.setFl v).out = s.out := rfl
@[simp] theorem State.setFl_mem (s : State) (v : Byte) : (s.setFl v).mem = s.mem := rfl

/-! ### State.setHalt -/

@[simp] theorem State.setHalt_regs (s : State) : (s.setHalt).regs = s.regs := rfl
@[simp] theorem State.setHalt_pc (s : State) : (s.setHalt).pc = s.pc := rfl
@[simp] theorem State.setHalt_fl (s : State) : (s.setHalt).fl = s.fl := rfl
@[simp] theorem State.setHalt_halt (s : State) : (s.setHalt).halt = true := rfl
@[simp] theorem State.setHalt_fault (s : State) : (s.setHalt).fault = s.fault := rfl
@[simp] theorem State.setHalt_out (s : State) : (s.setHalt).out = s.out := rfl
@[simp] theorem State.setHalt_mem (s : State) : (s.setHalt).mem = s.mem := rfl

/-! ### State.output -/

@[simp] theorem State.output_regs (s : State) (v : Byte) : (s.output v).regs = s.regs := rfl
@[simp] theorem State.output_pc (s : State) (v : Byte) : (s.output v).pc = s.pc := rfl
@[simp] theorem State.output_fl (s : State) (v : Byte) : (s.output v).fl = s.fl := rfl
@[simp] theorem State.output_halt (s : State) (v : Byte) : (s.output v).halt = s.halt := rfl
@[simp] theorem State.output_fault (s : State) (v : Byte) : (s.output v).fault = s.fault := rfl
@[simp] theorem State.output_out (s : State) (v : Byte) : (s.output v).out = s.out ++ [v] := rfl
@[simp] theorem State.output_mem (s : State) (v : Byte) : (s.output v).mem = s.mem := rfl

/-! ### State.writeByte -/

@[simp] theorem State.writeByte_regs (s : State) (addr v : Byte) : (s.writeByte addr v).regs = s.regs := rfl
@[simp] theorem State.writeByte_pc (s : State) (addr v : Byte) : (s.writeByte addr v).pc = s.pc := rfl
@[simp] theorem State.writeByte_fl (s : State) (addr v : Byte) : (s.writeByte addr v).fl = s.fl := rfl
@[simp] theorem State.writeByte_halt (s : State) (addr v : Byte) : (s.writeByte addr v).halt = s.halt := rfl
@[simp] theorem State.writeByte_fault (s : State) (addr v : Byte) : (s.writeByte addr v).fault = s.fault := rfl
@[simp] theorem State.writeByte_out (s : State) (addr v : Byte) : (s.writeByte addr v).out = s.out := rfl
@[simp] theorem State.writeByte_mem (s : State) (addr v : Byte) : (s.writeByte addr v).mem = Memory.write s.mem addr.toNat v := rfl

/-! ### State.raise -/

@[simp] theorem State.raise_regs (s : State) (c : FaultCause) : (s.raise c).regs = s.regs := rfl
@[simp] theorem State.raise_pc (s : State) (c : FaultCause) : (s.raise c).pc = s.pc := rfl
@[simp] theorem State.raise_fl (s : State) (c : FaultCause) : (s.raise c).fl = s.fl := rfl
@[simp] theorem State.raise_halt (s : State) (c : FaultCause) : (s.raise c).halt = s.halt := rfl
@[simp] theorem State.raise_fault (s : State) (c : FaultCause) : (s.raise c).fault = some ⟨c.code, c.info, s.pc⟩ := rfl
@[simp] theorem State.raise_out (s : State) (c : FaultCause) : (s.raise c).out = s.out := rfl
@[simp] theorem State.raise_mem (s : State) (c : FaultCause) : (s.raise c).mem = s.mem := rfl

/-! ### State.incSp -/

@[simp] theorem State.incSp_regs (s : State) (modulus : Nat) : (s.incSp modulus).regs = s.regs.set 7 (spInc modulus s.sp) := rfl
@[simp] theorem State.incSp_pc (s : State) (modulus : Nat) : (s.incSp modulus).pc = s.pc := rfl
@[simp] theorem State.incSp_fl (s : State) (modulus : Nat) : (s.incSp modulus).fl = s.fl := rfl
@[simp] theorem State.incSp_halt (s : State) (modulus : Nat) : (s.incSp modulus).halt = s.halt := rfl
@[simp] theorem State.incSp_fault (s : State) (modulus : Nat) : (s.incSp modulus).fault = s.fault := rfl
@[simp] theorem State.incSp_out (s : State) (modulus : Nat) : (s.incSp modulus).out = s.out := rfl
@[simp] theorem State.incSp_mem (s : State) (modulus : Nat) : (s.incSp modulus).mem = s.mem := rfl

/-! ### State.pushValue -/

@[simp] theorem State.pushValue_regs (s : State) (modulus : Nat) (value : State → Byte) : (s.pushValue modulus value).regs = s.regs.set 7 (spDec modulus s.sp) := rfl
@[simp] theorem State.pushValue_pc (s : State) (modulus : Nat) (value : State → Byte) : (s.pushValue modulus value).pc = s.pc := rfl
@[simp] theorem State.pushValue_fl (s : State) (modulus : Nat) (value : State → Byte) : (s.pushValue modulus value).fl = s.fl := rfl
@[simp] theorem State.pushValue_halt (s : State) (modulus : Nat) (value : State → Byte) : (s.pushValue modulus value).halt = s.halt := rfl
@[simp] theorem State.pushValue_fault (s : State) (modulus : Nat) (value : State → Byte) : (s.pushValue modulus value).fault = s.fault := rfl
@[simp] theorem State.pushValue_out (s : State) (modulus : Nat) (value : State → Byte) : (s.pushValue modulus value).out = s.out := rfl
@[simp] theorem State.pushValue_mem (s : State) (modulus : Nat) (value : State → Byte) : (s.pushValue modulus value).mem = Memory.write s.mem (spDec modulus s.sp).toNat (value (s.setSp (spDec modulus s.sp))) := rfl

/-! ### State.resetWith -/

@[simp] theorem State.resetWith_pc (g : Vector Byte 7) (m : Memory) : (State.resetWith g m).pc = 0 := rfl
@[simp] theorem State.resetWith_fl (g : Vector Byte 7) (m : Memory) : (State.resetWith g m).fl = 0 := rfl
@[simp] theorem State.resetWith_halt (g : Vector Byte 7) (m : Memory) : (State.resetWith g m).halt = false := rfl
@[simp] theorem State.resetWith_fault (g : Vector Byte 7) (m : Memory) : (State.resetWith g m).fault = none := rfl
@[simp] theorem State.resetWith_out (g : Vector Byte 7) (m : Memory) : (State.resetWith g m).out = [] := rfl
@[simp] theorem State.resetWith_mem (g : Vector Byte 7) (m : Memory) : (State.resetWith g m).mem = m := rfl
@[simp] theorem State.resetWith_regs (g : Vector Byte 7) (m : Memory) :
    (State.resetWith g m).regs = g.push 255 := rfl

/-! ### Reading a register -/

theorem State.reg_def (s : State) (i : Fin 8) : s.reg i = s.regs[i.val] := rfl

theorem State.sp_def (s : State) : s.sp = s.regs[7] := rfl

@[simp] theorem State.reg_setReg_self (s : State) (i : Fin 8) (v : Byte) : (s.setReg i v).reg i = v := by
  simp [State.reg]

theorem State.reg_setReg_other (s : State) (i j : Fin 8) (v : Byte) (h : j ≠ i) :
    (s.setReg i v).reg j = s.reg j := by
  have : i.val ≠ j.val := fun e => h (Fin.ext e.symm)
  simp [State.reg, this]

/-- Writes to two different registers commute. -/
theorem State.setReg_comm (s : State) (i j : Fin 8) (v u : Byte) (h : i ≠ j) :
    (s.setReg i v).setReg j u = (s.setReg j u).setReg i v := by
  have : i.val ≠ j.val := fun e => h (Fin.ext e)
  simp only [State.setReg]
  rw [Vector.set_comm v u this]

/-- A second write to a register replaces the first. -/
theorem State.setReg_setReg (s : State) (i : Fin 8) (v u : Byte) : (s.setReg i v).setReg i u = s.setReg i u := by
  simp [State.setReg]

/-- What a register reads as after a write: the value at the written index, the old one elsewhere. -/
theorem State.reg_setReg (s : State) (i j : Fin 8) (v : Byte) :
    (s.setReg i v).reg j = if j = i then v else s.reg j := by
  split
  · subst j; simp
  · exact State.reg_setReg_other s i j v ‹_›

end Sys2Proof.Machine
end

