-- ==== Sys2Proof/Laws/Machine.lean ====
section
/-! SUPPORT. One lemma per shared operation that says what it can do: the register check, the fetch, the stack pointer, the
advance, the execute phase and the step of a RUNNING machine. -/

namespace Sys2Proof.Machine

/-! ### The run state -/

theorem State.runState_running {s : State} : s.runState = .running ↔ s.fault = none ∧ s.halt = false := by
  unfold State.runState
  cases s.fault <;> cases s.halt <;> simp

theorem State.runState_halted {s : State} : s.runState = .halted ↔ s.fault = none ∧ s.halt = true := by
  unfold State.runState
  cases s.fault <;> cases s.halt <;> simp

theorem State.runState_faulted {s : State} : s.runState = .faulted ↔ s.fault ≠ none := by
  unfold State.runState
  cases s.fault <;> cases s.halt <;> simp

/-! ### The register check -/

theorem withReg_of_lt {i : Nat} (h : i < 8) (s : State) (k : Fin 8 → Result) : withReg i s k = k ⟨i, h⟩ :=
  dif_pos h

theorem withReg_of_ge {i : Nat} (h : 8 ≤ i) (s : State) (k : Fin 8 → Result) :
    withReg i s k = .next (s.raise (.registerBounds i)) :=
  dif_neg (by omega)

/-- All a register check can do: the instruction goes on with the register, or the fault is raised and nothing else. -/
theorem withReg_cases (i : Nat) (s : State) (k : Fin 8 → Result) :
    (∃ h : i < 8, withReg i s k = k ⟨i, h⟩) ∨
    (8 ≤ i ∧ withReg i s k = .next (s.raise (.registerBounds i))) := by
  by_cases h : i < 8
  · exact .inl ⟨h, withReg_of_lt h s k⟩
  · exact .inr ⟨by omega, withReg_of_ge (by omega) s k⟩

/-! ### The stack pointer -/

/-- Under modulus 256 the stack pointer counts down like an 8-bit counter (R89). -/
@[simp] theorem spDec_256 (sp : Byte) : spDec 256 sp = sp - 1 := by
  apply BitVec.eq_of_toNat_eq
  have := sp.isLt
  simp [spDec, toNat_lowByte, BitVec.toNat_sub]
  omega

/-- Under modulus 256 the stack pointer counts up like an 8-bit counter (R89). -/
@[simp] theorem spInc_256 (sp : Byte) : spInc 256 sp = sp + 1 := by
  apply BitVec.eq_of_toNat_eq
  have := sp.isLt
  simp [spInc, toNat_lowByte, BitVec.toNat_add]

/-! ### The fetch -/

theorem State.memRead_of_lt (s : State) {addr : Nat} (h : addr < 256) :
    s.memRead addr = .ok (Memory.read s.mem addr) := if_pos h

theorem State.memRead_of_ge (s : State) {addr : Nat} (h : 256 ≤ addr) :
    s.memRead addr = .error (.memoryBounds addr) := if_neg (by simp only [Config.memSize]; omega)

/-- At or below 253 the fetch reads its three bytes. -/
theorem State.fetch_of_le (s : State) (h : s.pc.toNat ≤ 253) :
    s.fetch = .ok (Memory.read s.mem s.pc.toNat, Memory.read s.mem (s.pc.toNat + 1),
      Memory.read s.mem (s.pc.toNat + 2)) := by
  simp [State.fetch, s.memRead_of_lt (show s.pc.toNat < 256 by omega),
    s.memRead_of_lt (show s.pc.toNat + 1 < 256 by omega), s.memRead_of_lt (show s.pc.toNat + 2 < 256 by omega)]

/-- Above 253 the fetch faults, always at address 256 (R74, C12). -/
theorem State.fetch_of_ge (s : State) (h : 254 ≤ s.pc.toNat) : s.fetch = .error (.memoryBounds 256) := by
  have hpc := s.pc.isLt
  rw [State.fetch, s.memRead_of_lt (by omega)]
  rcases (by omega : s.pc.toNat = 254 ∨ s.pc.toNat = 255) with e | e
  · rw [e, s.memRead_of_lt (by omega), s.memRead_of_ge (by omega)]
  · rw [e, s.memRead_of_ge (by omega)]

/-! ### The advance -/

theorem State.advance_of_lt (s : State) (n : Nat) (h : s.pc.toNat + n + 1 < 256) :
    s.advance n = s.setPc (lowByte (s.pc.toNat + n + 1)) := if_pos h

theorem State.advance_of_ge (s : State) (n : Nat) (h : 256 ≤ s.pc.toNat + n + 1) :
    s.advance n = s.raise (.memoryBounds (s.pc.toNat + n + 1)) :=
  if_neg (by simp only [Config.memSize]; omega)

/-- All that follows the execute phase: nothing after a raise or when P = 1, else the advance or its fault. -/
theorem State.finish_cases (t : State) (d : Decoded) :
    ((t.fault ≠ none ∨ d.pcIsSetByInstruction = true) ∧ t.finish d = t) ∨
    (t.fault = none ∧ d.pcIsSetByInstruction = false ∧
      ((t.pc.toNat + d.operandCount.toNat + 1 < 256 ∧
          t.finish d = t.setPc (lowByte (t.pc.toNat + d.operandCount.toNat + 1))) ∨
        (256 ≤ t.pc.toNat + d.operandCount.toNat + 1 ∧
          t.finish d = t.raise (.memoryBounds (t.pc.toNat + d.operandCount.toNat + 1))))) := by
  unfold State.finish
  cases hf : t.fault <;> cases hp : d.pcIsSetByInstruction <;> simp
  rcases Nat.lt_or_ge (t.pc.toNat + d.operandCount.toNat + 1) 256 with h | h
  · exact .inl ⟨h, t.advance_of_lt _ h⟩
  · exact .inr ⟨by omega, t.advance_of_ge _ h⟩

/-! The advance and what follows the execute phase leave every field but pc and the fault record. -/

@[simp] theorem State.advance_regs (s : State) (n : Nat) : (s.advance n).regs = s.regs := by
  unfold State.advance; split <;> rfl

@[simp] theorem State.advance_fl (s : State) (n : Nat) : (s.advance n).fl = s.fl := by
  unfold State.advance; split <;> rfl

@[simp] theorem State.advance_halt (s : State) (n : Nat) : (s.advance n).halt = s.halt := by
  unfold State.advance; split <;> rfl

@[simp] theorem State.advance_out (s : State) (n : Nat) : (s.advance n).out = s.out := by
  unfold State.advance; split <;> rfl

@[simp] theorem State.advance_mem (s : State) (n : Nat) : (s.advance n).mem = s.mem := by
  unfold State.advance; split <;> rfl

@[simp] theorem State.finish_regs (t : State) (d : Decoded) : (t.finish d).regs = t.regs := by
  unfold State.finish; split <;> simp

@[simp] theorem State.finish_fl (t : State) (d : Decoded) : (t.finish d).fl = t.fl := by
  unfold State.finish; split <;> simp

@[simp] theorem State.finish_halt (t : State) (d : Decoded) : (t.finish d).halt = t.halt := by
  unfold State.finish; split <;> simp

@[simp] theorem State.finish_out (t : State) (d : Decoded) : (t.finish d).out = t.out := by
  unfold State.finish; split <;> simp

@[simp] theorem State.finish_mem (t : State) (d : Decoded) : (t.finish d).mem = t.mem := by
  unfold State.finish; split <;> simp

/-! ### The execute phase and the step -/

/-- `exec` is the execute phase at the spec's modulus. -/
theorem exec_eq_execAt : exec = execAt Config.spModulus := by
  funext i s
  cases i <;> rfl

/-- `step` is the step at the spec's modulus. -/
theorem step_eq_stepAt : step = stepAt Config.spModulus := by
  funext s
  show stepBy exec s = stepBy (execAt Config.spModulus) s
  rw [exec_eq_execAt]

/-- The execute phase of every instruction answers a next state, whatever the modulus: none stops the machine. -/
theorem execAt_answers_next (modulus : Nat) (i : Instr) (s : State) : ∃ t, execAt modulus i s = .next t := by
  have one : ∀ (r : Nat) (k : Fin 8 → Result), (∀ j, ∃ t, k j = .next t) → ∃ t, withReg r s k = .next t := by
    intro r k hk
    rcases withReg_cases r s k with ⟨h, e⟩ | ⟨_, e⟩
    · obtain ⟨t, ht⟩ := hk ⟨r, h⟩
      exact ⟨t, e.trans ht⟩
    · exact ⟨_, e⟩
  have jump : ∀ r : Nat, ∃ t, jumpToReg r s = .next t := fun r => by
    unfold jumpToReg
    exact one r _ fun _ => ⟨_, rfl⟩
  have branch : ∀ (c : Bool) (r : Nat), ∃ t, branchOn c r s = .next t := fun c r => by
    unfold branchOn
    split
    · exact jump r
    · exact ⟨_, rfl⟩
  cases i with
  | add a b => simp only [execAt, execAdd]; exact one a _ fun _ => one b _ fun _ => ⟨_, rfl⟩
  | mul a b => simp only [execAt, execMul]; exact one a _ fun _ => one b _ fun _ => ⟨_, rfl⟩
  | cmp a b => simp only [execAt, execCmp]; exact one a _ fun _ => one b _ fun _ => ⟨_, rfl⟩
  | ldi a v => simp only [execAt, execLdi]; exact one a _ fun _ => ⟨_, rfl⟩
  | prn a => simp only [execAt, execPrn]; exact one a _ fun _ => ⟨_, rfl⟩
  | push a => simp only [execAt, execPushWith]; exact one a _ fun _ => ⟨_, rfl⟩
  | pop a => simp only [execAt, execPopWith]; exact one a _ fun _ => ⟨_, rfl⟩
  | call a => simp only [execAt, execCallWith]; exact one a _ fun _ => ⟨_, rfl⟩
  | hlt => exact ⟨_, rfl⟩
  | ret => exact ⟨_, rfl⟩
  | jmp a => exact jump a
  | jeq a => exact branch _ a
  | jne a => exact branch _ a

theorem exec_answers_next (i : Instr) (s : State) : ∃ t, exec i s = .next t :=
  exec_eq_execAt ▸ execAt_answers_next Config.spModulus i s

/-- All a step that answers a next state can have done: the operand fetch faulted, an invalid opcode faulted, or the decoded
instruction ran and the step finished it. -/
theorem stepAt_cases {modulus : Nat} {s t : State} (h : stepAt modulus s = .next t) :
    s.runState = .running ∧
    ((254 ≤ s.pc.toNat ∧ t = s.raise (.memoryBounds 256)) ∨
     (s.pc.toNat ≤ 253 ∧ ∃ op a b, s.fetch = .ok (op, a, b) ∧ op = Memory.read s.mem s.pc.toNat ∧
       ((∃ r, decodeInstr op a b = .error r ∧ t = s.raise (rejectCause r)) ∨
        (∃ i u, decodeInstr op a b = .ok i ∧ execAt modulus i s = .next u ∧ t = u.finish (decodeOpcode op))))) := by
  unfold stepAt stepBy at h
  split at h
  case h_2 | h_3 => cases h
  refine ⟨‹_›, ?_⟩
  unfold stepRunning at h
  rcases Nat.lt_or_ge 253 s.pc.toNat with hpc | hpc
  · rw [s.fetch_of_ge hpc] at h
    cases h
    exact .inl ⟨hpc, rfl⟩
  · refine .inr ⟨hpc, _, _, _, s.fetch_of_le hpc, rfl, ?_⟩
    rw [s.fetch_of_le hpc] at h
    simp only [dispatchAndFinish] at h
    split at h
    · cases h
      exact .inl ⟨_, ‹_›, rfl⟩
    · rename_i i hi
      obtain ⟨u, hu⟩ := execAt_answers_next modulus i s
      rw [hu] at h
      cases h
      exact .inr ⟨i, u, hi, hu, rfl⟩

theorem step_cases {s t : State} (h : step s = .next t) :
    s.runState = .running ∧
    ((254 ≤ s.pc.toNat ∧ t = s.raise (.memoryBounds 256)) ∨
     (s.pc.toNat ≤ 253 ∧ ∃ op a b, s.fetch = .ok (op, a, b) ∧ op = Memory.read s.mem s.pc.toNat ∧
       ((∃ r, decodeInstr op a b = .error r ∧ t = s.raise (rejectCause r)) ∨
        (∃ i u, decodeInstr op a b = .ok i ∧ exec i s = .next u ∧ t = u.finish (decodeOpcode op))))) := by
  rw [step_eq_stepAt] at h
  rw [exec_eq_execAt]
  exact stepAt_cases h

/-- A step at or below 253 is the dispatch of its three bytes, whatever runs the execute phase. -/
theorem stepBy_of_running {run : Instr → State → Result} {s : State} (hr : s.runState = .running)
    (hpc : s.pc.toNat ≤ 253) :
    stepBy run s = dispatchAndFinish run s (Memory.read s.mem s.pc.toNat) (Memory.read s.mem (s.pc.toNat + 1))
      (Memory.read s.mem (s.pc.toNat + 2)) := by
  unfold stepBy stepRunning
  rw [hr, s.fetch_of_le hpc]

/-- No step exists in HALTED (R70). -/
theorem stepBy_of_halted {run : Instr → State → Result} {s : State} (hr : s.runState = .halted) :
    stepBy run s = .fault .halted := by
  unfold stepBy
  rw [hr]

/-- No step exists in FAULTED (R70). -/
theorem stepBy_of_faulted {run : Instr → State → Result} {s : State} (hr : s.runState = .faulted) :
    stepBy run s = .fault .faulted := by
  unfold stepBy
  rw [hr]

/-- A step at 254 and 255 is the operand fetch's fault. -/
theorem stepBy_of_ge {run : Instr → State → Result} {s : State} (hr : s.runState = .running) (hpc : 254 ≤ s.pc.toNat) :
    stepBy run s = .next (s.raise (.memoryBounds 256)) := by
  unfold stepBy stepRunning
  rw [hr, s.fetch_of_ge hpc]

theorem step_of_running {s : State} (hr : s.runState = .running) (hpc : s.pc.toNat ≤ 253) :
    step s = dispatchAndFinish exec s (Memory.read s.mem s.pc.toNat) (Memory.read s.mem (s.pc.toNat + 1))
      (Memory.read s.mem (s.pc.toNat + 2)) :=
  stepBy_of_running hr hpc

/-- The instruction the step dispatches, at or below 253. -/
theorem State.current_of_running {s : State} (hr : s.runState = .running) (hpc : s.pc.toNat ≤ 253) :
    s.current = (decodeInstr (Memory.read s.mem s.pc.toNat) (Memory.read s.mem (s.pc.toNat + 1))
      (Memory.read s.mem (s.pc.toNat + 2))).toOption := by
  unfold State.current
  rw [hr, s.fetch_of_le hpc]

end Sys2Proof.Machine
end

