-- ==== Sys2Proof/Laws/Exec.lean ====
section
/-! SUPPORT. Said once: all that the execute phase of an instruction can do. Every frame and every invariant follows from
`exec_cases` by cases on the instruction. -/

namespace Sys2Proof.Machine

@[simp] theorem spModulus_eq : Config.spModulus = 256 := rfl

/-- The effect of an instruction whose register operands pass their check, as a relation of the state before and the state
after, at a stack-pointer modulus (R84 to R86, R90 to R99). -/
def EffectAt (modulus : Nat) (i : Instr) (s t : State) : Prop :=
  match i with
  | .add a b => ∃ (ha : a < 8) (hb : b < 8), t = s.setReg ⟨a, ha⟩ (aluAdd (s.reg ⟨a, ha⟩) (s.reg ⟨b, hb⟩))
  | .mul a b => ∃ (ha : a < 8) (hb : b < 8), t = s.setReg ⟨a, ha⟩ (aluMul (s.reg ⟨a, ha⟩) (s.reg ⟨b, hb⟩))
  | .cmp a b => ∃ (ha : a < 8) (hb : b < 8), t = s.setFl (compareFlags (s.reg ⟨a, ha⟩) (s.reg ⟨b, hb⟩))
  | .ldi a v => ∃ ha : a < 8, t = s.setReg ⟨a, ha⟩ v
  | .prn a => ∃ ha : a < 8, t = s.output (s.reg ⟨a, ha⟩)
  | .hlt => t = s.setHalt
  | .push a => ∃ ha : a < 8, t = s.pushValue modulus (fun u => u.reg ⟨a, ha⟩)
  | .pop a => ∃ ha : a < 8, t = (s.setReg ⟨a, ha⟩ (s.readByte s.sp)).incSp modulus
  | .call a => ∃ ha : a < 8, t = (s.pushValue modulus (fun _ => s.nextPc 1)).setPc
      ((s.pushValue modulus (fun _ => s.nextPc 1)).reg ⟨a, ha⟩)
  | .ret => t = (s.setPc (s.readByte s.sp)).incSp modulus
  | .jmp a => ∃ ha : a < 8, t = s.setPc (s.reg ⟨a, ha⟩)
  | .jeq a =>
    (s.flE = true ∧ ∃ ha : a < 8, t = s.setPc (s.reg ⟨a, ha⟩)) ∨ (s.flE = false ∧ t = s.setPc (s.nextPc 1))
  | .jne a =>
    (s.flE = false ∧ ∃ ha : a < 8, t = s.setPc (s.reg ⟨a, ha⟩)) ∨ (s.flE = true ∧ t = s.setPc (s.nextPc 1))

/-- The effect at the spec's modulus. -/
abbrev Effect (i : Instr) (s t : State) : Prop := EffectAt Config.spModulus i s t

theorem withReg_next {i : Nat} {s t : State} {k : Fin 8 → Result} (h : withReg i s k = .next t) :
    (∃ hi : i < 8, k ⟨i, hi⟩ = .next t) ∨ (8 ≤ i ∧ t = s.raise (.registerBounds i)) := by
  rcases withReg_cases i s k with ⟨hi, e⟩ | ⟨hi, e⟩
  · exact .inl ⟨hi, e ▸ h⟩
  · rw [e] at h
    cases h
    exact .inr ⟨hi, rfl⟩

/-- All that an instruction can do: a register operand it accesses is above 7, its fault is raised and nothing else changes;
or the operands pass and it has its effect. -/
theorem execAt_cases {modulus : Nat} {i : Instr} {s t : State} (h : execAt modulus i s = .next t) :
    (∃ r ∈ accessedRegs s.flE i, 8 ≤ r ∧ t = s.raise (.registerBounds r)) ∨ EffectAt modulus i s t := by
  have two : ∀ {a b : Nat} {k : Fin 8 → Fin 8 → State},
      (withReg a s fun d => withReg b s fun r => .next (k d r)) = .next t →
      (∃ r ∈ [a, b], 8 ≤ r ∧ t = s.raise (.registerBounds r)) ∨
        ∃ (ha : a < 8) (hb : b < 8), t = k ⟨a, ha⟩ ⟨b, hb⟩ := by
    intro a b k h
    rcases withReg_next h with ⟨ha, h⟩ | ⟨ha, h⟩
    · rcases withReg_next h with ⟨hb, h⟩ | ⟨hb, h⟩
      · cases h
        exact .inr ⟨ha, hb, rfl⟩
      · exact .inl ⟨b, by simp, hb, h⟩
    · exact .inl ⟨a, by simp, ha, h⟩
  have one : ∀ {a : Nat} (k : Fin 8 → State), (withReg a s fun d => .next (k d)) = .next t →
      (∃ r ∈ [a], 8 ≤ r ∧ t = s.raise (.registerBounds r)) ∨ ∃ ha : a < 8, t = k ⟨a, ha⟩ := by
    intro a k h
    rcases withReg_next h with ⟨ha, h⟩ | ⟨ha, h⟩
    · cases h
      exact .inr ⟨ha, rfl⟩
    · exact .inl ⟨a, by simp, ha, h⟩
  cases i with
  | add a b => exact two (k := fun d r => s.setReg d (aluAdd (s.reg d) (s.reg r))) h
  | mul a b => exact two (k := fun d r => s.setReg d (aluMul (s.reg d) (s.reg r))) h
  | cmp a b => exact two (k := fun p q => s.setFl (compareFlags (s.reg p) (s.reg q))) h
  | ldi a v => exact one (fun d => s.setReg d v) h
  | prn a => exact one (fun r => s.output (s.reg r)) h
  | hlt =>
    cases h
    exact .inr rfl
  | push a => exact one (fun r => s.pushValue modulus (fun u => u.reg r)) h
  | pop a => exact one (fun d => (s.setReg d (s.readByte s.sp)).incSp modulus) h
  | call a =>
    exact one (fun r => (s.pushValue modulus (fun _ => s.nextPc 1)).setPc
      ((s.pushValue modulus (fun _ => s.nextPc 1)).reg r)) h
  | ret =>
    cases h
    exact .inr rfl
  | jmp a => exact one (fun r => s.setPc (s.reg r)) h
  | jeq a =>
    simp only [execAt, execJeq, branchOn] at h
    cases he : s.flE <;> simp only [he, Bool.false_eq_true, if_false, if_true] at h
    · cases h
      exact .inr (.inr ⟨he, rfl⟩)
    · rcases one (fun r => s.setPc (s.reg r)) h with h | h
      · exact .inl (by simpa [accessedRegs] using h)
      · exact .inr (.inl ⟨he, h⟩)
  | jne a =>
    simp only [execAt, execJne, branchOn] at h
    cases he : s.flE <;> simp only [he, Bool.not_false, Bool.not_true, Bool.false_eq_true, if_false, if_true] at h
    · rcases one (fun r => s.setPc (s.reg r)) h with h | h
      · exact .inl (by simpa [accessedRegs] using h)
      · exact .inr (.inl ⟨he, h⟩)
    · cases h
      exact .inr (.inr ⟨he, rfl⟩)

theorem exec_cases {i : Instr} {s t : State} (h : exec i s = .next t) :
    (∃ r ∈ accessedRegs s.flE i, 8 ≤ r ∧ t = s.raise (.registerBounds r)) ∨ Effect i s t :=
  execAt_cases (exec_eq_execAt ▸ h)

/-! ### What follows for every instruction -/

/-- An instruction raises no fault but its register check's, and then changes nothing else. -/
theorem execAt_fault_cases {modulus : Nat} {i : Instr} {s t : State}
    (h : execAt modulus i s = .next t) :
    t.fault = s.fault ∨ ∃ r ∈ accessedRegs s.flE i, 8 ≤ r ∧ t = s.raise (.registerBounds r) := by
  rcases execAt_cases h with hr | h
  · exact .inr hr
  · refine .inl ?_
    cases i
    case jeq | jne => rcases h with ⟨_, _, rfl⟩ | ⟨_, rfl⟩ <;> rfl
    case add | mul | cmp => obtain ⟨_, _, rfl⟩ := h; rfl
    case hlt | ret => subst h; rfl
    all_goals obtain ⟨_, rfl⟩ := h; rfl

/-- An instruction whose opcode lacks the sets-PC bit leaves pc to the step's advance. -/
theorem execAt_pc_of_not_set {modulus : Nat} {i : Instr} {s t : State}
    (h : execAt modulus i s = .next t)
    (hp : (decodeOpcode (opcodeOf i.insn)).pcIsSetByInstruction = false) : t.pc = s.pc := by
  rw [pcIsSet_opcodeOf] at hp
  rcases execAt_cases h with ⟨_, _, _, rfl⟩ | h
  · rfl
  · cases i <;> simp only [Instr.insn, Bool.true_eq_false] at hp
    case add | mul | cmp => obtain ⟨_, _, rfl⟩ := h; rfl
    case hlt => subst h; rfl
    all_goals obtain ⟨_, rfl⟩ := h; rfl

theorem exec_fault_cases {i : Instr} {s t : State} (h : exec i s = .next t) :
    t.fault = s.fault ∨ ∃ r ∈ accessedRegs s.flE i, 8 ≤ r ∧ t = s.raise (.registerBounds r) :=
  execAt_fault_cases (exec_eq_execAt ▸ h)

theorem exec_pc_of_not_set {i : Instr} {s t : State} (h : exec i s = .next t)
    (hp : (decodeOpcode (opcodeOf i.insn)).pcIsSetByInstruction = false) : t.pc = s.pc :=
  execAt_pc_of_not_set (exec_eq_execAt ▸ h) hp

/-- A decoded instruction's opcode byte is the byte it was decoded from. -/
theorem opcodeOf_of_decodeInstr {op a b : Byte} {i : Instr} (h : decodeInstr op a b = .ok i) :
    opcodeOf i.insn = op := by
  have hi := insn_of_decodeInstr h
  rw [hi]
  exact opcodeOf_selectInsn op (hi ▸ i.insn_valid.1) (hi ▸ i.insn_valid.2)

/-- The ways a dispatched instruction `i` that left state `u` ends its step, with the opcode's fields: its register check
faulted; it set pc itself; pc advanced; or, for a three-byte instruction at 253, the advance faulted. -/
def StepEnd (s : State) (i : Instr) (u t : State) : Prop :=
  let d := decodeOpcode (Memory.read s.mem s.pc.toNat)
  (∃ r ∈ accessedRegs s.flE i, 8 ≤ r ∧ u = s.raise (.registerBounds r) ∧ t = u) ∨
  (u.fault = none ∧ d.pcIsSetByInstruction = true ∧ t = u) ∨
  (u.fault = none ∧ d.pcIsSetByInstruction = false ∧ u.pc = s.pc ∧
    ((s.pc.toNat + d.operandCount.toNat + 1 < 256 ∧
        t = u.setPc (lowByte (s.pc.toNat + d.operandCount.toNat + 1))) ∨
      (s.pc.toNat = 253 ∧ d.operandCount.toNat = 2 ∧ t = u.raise (.memoryBounds 256))))

/-- All a step can do, with everything a proof about steps needs: the operand fetch faults, an invalid opcode faults, or the
current instruction runs and the step ends in one of the ways of `StepEnd`. -/
theorem stepAt_outcomes {modulus : Nat} {s t : State} (h : stepAt modulus s = .next t) :
    s.fault = none ∧ s.halt = false ∧
    ((254 ≤ s.pc.toNat ∧ s.current = none ∧ t = s.raise (.memoryBounds 256)) ∨
     (s.pc.toNat ≤ 253 ∧ s.current = none ∧
       ∃ r, decodeInstr (Memory.read s.mem s.pc.toNat) (Memory.read s.mem (s.pc.toNat + 1))
         (Memory.read s.mem (s.pc.toNat + 2)) = .error r ∧ t = s.raise (rejectCause r)) ∨
     (s.pc.toNat ≤ 253 ∧ ∃ i u, s.current = some i ∧
       decodeInstr (Memory.read s.mem s.pc.toNat) (Memory.read s.mem (s.pc.toNat + 1))
         (Memory.read s.mem (s.pc.toNat + 2)) = .ok i ∧
       opcodeOf i.insn = Memory.read s.mem s.pc.toNat ∧ execAt modulus i s = .next u ∧ StepEnd s i u t)) := by
  obtain ⟨hr, h⟩ := stepAt_cases h
  obtain ⟨hf, hh⟩ := State.runState_running.mp hr
  refine ⟨hf, hh, ?_⟩
  rcases h with ⟨hpc, ht⟩ | ⟨hpc, op, a, b, hfe, hop, h⟩
  · refine .inl ⟨hpc, ?_, ht⟩
    unfold State.current
    rw [hr, s.fetch_of_ge hpc]
  have hc := State.current_of_running hr hpc
  rw [s.fetch_of_le hpc] at hfe
  cases hfe
  rcases h with ⟨r, hd, ht⟩ | ⟨i, u, hd, hu, ht⟩
  · exact .inr (.inl ⟨hpc, by rw [hc, hd]; rfl, r, hd, ht⟩)
  refine .inr (.inr ⟨hpc, i, u, by rw [hc, hd]; rfl, hd, opcodeOf_of_decodeInstr hd, hu, ?_⟩)
  rcases execAt_fault_cases hu with huf | ⟨r, hra, h8, hur⟩
  · rw [hf] at huf
    rcases u.finish_cases (decodeOpcode (Memory.read s.mem s.pc.toNat)) with ⟨h', e⟩ | ⟨_, hp, h'⟩
    · rcases h' with h' | h'
      · exact absurd huf h'
      · exact .inr (.inl ⟨huf, h', ht.trans e⟩)
    · have hpc' : u.pc = s.pc := execAt_pc_of_not_set hu (by rw [opcodeOf_of_decodeInstr hd]; exact hp)
      rw [hpc'] at h'
      refine .inr (.inr ⟨huf, hp, hpc', ?_⟩)
      rcases h' with ⟨h1, e⟩ | ⟨h1, e⟩
      · exact .inl ⟨h1, ht.trans e⟩
      · have hv := insn_of_decodeInstr hd
        have hn := operandCount_le (Memory.read s.mem s.pc.toNat) (hv ▸ i.insn_valid.1) (hv ▸ i.insn_valid.2)
        have hsum : s.pc.toNat + (decodeOpcode (Memory.read s.mem s.pc.toNat)).operandCount.toNat + 1 = 256 := by
          omega
        rw [hsum] at e
        exact .inr ⟨by omega, by omega, ht.trans e⟩
  · refine .inl ⟨r, hra, h8, hur, ?_⟩
    rcases u.finish_cases (decodeOpcode (Memory.read s.mem s.pc.toNat)) with ⟨_, e⟩ | ⟨h', _⟩
    · exact ht.trans e
    · rw [hur] at h'
      cases h'

theorem step_outcomes {s t : State} (h : step s = .next t) :
    s.fault = none ∧ s.halt = false ∧
    ((254 ≤ s.pc.toNat ∧ s.current = none ∧ t = s.raise (.memoryBounds 256)) ∨
     (s.pc.toNat ≤ 253 ∧ s.current = none ∧
       ∃ r, decodeInstr (Memory.read s.mem s.pc.toNat) (Memory.read s.mem (s.pc.toNat + 1))
         (Memory.read s.mem (s.pc.toNat + 2)) = .error r ∧ t = s.raise (rejectCause r)) ∨
     (s.pc.toNat ≤ 253 ∧ ∃ i u, s.current = some i ∧
       decodeInstr (Memory.read s.mem s.pc.toNat) (Memory.read s.mem (s.pc.toNat + 1))
         (Memory.read s.mem (s.pc.toNat + 2)) = .ok i ∧
       opcodeOf i.insn = Memory.read s.mem s.pc.toNat ∧ exec i s = .next u ∧ StepEnd s i u t)) := by
  rw [step_eq_stepAt] at h
  rw [exec_eq_execAt]
  exact stepAt_outcomes h

/-- The accesses of a step that is taken at a modulus: the fetch's, then the current instruction's. -/
theorem State.transfersAt_of_step {modulus : Nat} {s t : State} (h : stepAt modulus s = .next t) :
    s.transfersAt modulus = s.fetchTransfers ++
      (match s.current with
       | some i => s.dataTransfersAt modulus i
       | none => []) := by
  have hr := (stepAt_cases h).1
  unfold State.transfersAt
  split
  · rfl
  · exact absurd hr ‹_›

/-- The accesses of a step that is taken: the fetch's, then the current instruction's. -/
theorem State.transfers_of_step {s t : State} (h : step s = .next t) :
    s.transfers = s.fetchTransfers ++
      (match s.current with
       | some i => s.dataTransfers i
       | none => []) :=
  State.transfersAt_of_step (step_eq_stepAt ▸ h)

end Sys2Proof.Machine
end

