-- ==== Sys2Proof/Laws/PerInstr.lean ====
section
/-! SUPPORT. The families of statements made per instruction, about the instruction as syntax. -/

namespace Sys2Proof.Laws

/-- The opcode byte an instruction is encoded with selects that instruction and no other (R57, R58). -/
def OpcodeSelects.Statement (i : Instr) : Prop := selectInsn (opcodeOf i.insn) = i.insn

theorem OpcodeSelects.add (a b : Nat) : OpcodeSelects.Statement (.add a b) :=
  selectInsn_insn _
theorem OpcodeSelects.mul (a b : Nat) : OpcodeSelects.Statement (.mul a b) :=
  selectInsn_insn _
theorem OpcodeSelects.cmp (a b : Nat) : OpcodeSelects.Statement (.cmp a b) :=
  selectInsn_insn _
theorem OpcodeSelects.ldi (a : Nat) (v : Byte) : OpcodeSelects.Statement (.ldi a v) :=
  selectInsn_insn _
theorem OpcodeSelects.prn (a : Nat) : OpcodeSelects.Statement (.prn a) :=
  selectInsn_insn _
theorem OpcodeSelects.hlt : OpcodeSelects.Statement .hlt :=
  selectInsn_insn _
theorem OpcodeSelects.push (a : Nat) : OpcodeSelects.Statement (.push a) :=
  selectInsn_insn _
theorem OpcodeSelects.pop (a : Nat) : OpcodeSelects.Statement (.pop a) :=
  selectInsn_insn _
theorem OpcodeSelects.call (a : Nat) : OpcodeSelects.Statement (.call a) :=
  selectInsn_insn _
theorem OpcodeSelects.ret : OpcodeSelects.Statement .ret :=
  selectInsn_insn _
theorem OpcodeSelects.jmp (a : Nat) : OpcodeSelects.Statement (.jmp a) :=
  selectInsn_insn _
theorem OpcodeSelects.jeq (a : Nat) : OpcodeSelects.Statement (.jeq a) :=
  selectInsn_insn _
theorem OpcodeSelects.jne (a : Nat) : OpcodeSelects.Statement (.jne a) :=
  selectInsn_insn _

/-- An instruction has as many operand bytes as the operand count in its opcode says (R54, R66). -/
def OperandBytesCounted.Statement (i : Instr) : Prop :=
  (operandBytes i).length = (decodeOpcode (opcodeOf i.insn)).operandCount.toNat

theorem OperandBytesCounted.add (a b : Nat) : OperandBytesCounted.Statement (.add a b) := by
  show (2 : Nat) = (decodeOpcode (opcodeOf .add)).operandCount.toNat; decide
theorem OperandBytesCounted.mul (a b : Nat) : OperandBytesCounted.Statement (.mul a b) := by
  show (2 : Nat) = (decodeOpcode (opcodeOf .mul)).operandCount.toNat; decide
theorem OperandBytesCounted.cmp (a b : Nat) : OperandBytesCounted.Statement (.cmp a b) := by
  show (2 : Nat) = (decodeOpcode (opcodeOf .cmp)).operandCount.toNat; decide
theorem OperandBytesCounted.ldi (a : Nat) (v : Byte) : OperandBytesCounted.Statement (.ldi a v) := by
  show (2 : Nat) = (decodeOpcode (opcodeOf .ldi)).operandCount.toNat; decide
theorem OperandBytesCounted.prn (a : Nat) : OperandBytesCounted.Statement (.prn a) := by
  show (1 : Nat) = (decodeOpcode (opcodeOf .prn)).operandCount.toNat; decide
theorem OperandBytesCounted.hlt : OperandBytesCounted.Statement .hlt := by
  show (0 : Nat) = (decodeOpcode (opcodeOf .hlt)).operandCount.toNat; decide
theorem OperandBytesCounted.push (a : Nat) : OperandBytesCounted.Statement (.push a) := by
  show (1 : Nat) = (decodeOpcode (opcodeOf .push)).operandCount.toNat; decide
theorem OperandBytesCounted.pop (a : Nat) : OperandBytesCounted.Statement (.pop a) := by
  show (1 : Nat) = (decodeOpcode (opcodeOf .pop)).operandCount.toNat; decide
theorem OperandBytesCounted.call (a : Nat) : OperandBytesCounted.Statement (.call a) := by
  show (1 : Nat) = (decodeOpcode (opcodeOf .call)).operandCount.toNat; decide
theorem OperandBytesCounted.ret : OperandBytesCounted.Statement .ret := by
  show (0 : Nat) = (decodeOpcode (opcodeOf .ret)).operandCount.toNat; decide
theorem OperandBytesCounted.jmp (a : Nat) : OperandBytesCounted.Statement (.jmp a) := by
  show (1 : Nat) = (decodeOpcode (opcodeOf .jmp)).operandCount.toNat; decide
theorem OperandBytesCounted.jeq (a : Nat) : OperandBytesCounted.Statement (.jeq a) := by
  show (1 : Nat) = (decodeOpcode (opcodeOf .jeq)).operandCount.toNat; decide
theorem OperandBytesCounted.jne (a : Nat) : OperandBytesCounted.Statement (.jne a) := by
  show (1 : Nat) = (decodeOpcode (opcodeOf .jne)).operandCount.toNat; decide

end Sys2Proof.Laws
end

