-- ==== Sys2Proof/Tests/Slice0.lean ====
section
/-! SUPPORT. The model's own tests: ill-formed terms that WellFormed refuses; encodings written out from 30_encoding.md; one
step of each instruction against the vectors of 95_test_vectors.md section 2; and a witness for the hypotheses of each
statement. -/

namespace Sys2Proof.Tests

open Sys2Proof.Machine

/-! ### Well-formedness refuses an operand that its byte cannot hold -/

theorem test_wf_refuses_two_operands :
    (Instr.add 256 0).wf = false ∧ (Instr.add 0 256).wf = false ∧ (Instr.mul 256 0).wf = false ∧
    (Instr.mul 0 256).wf = false ∧ (Instr.cmp 256 0).wf = false ∧ (Instr.cmp 0 256).wf = false := by decide

theorem test_wf_refuses_one_operand :
    (Instr.ldi 256 0).wf = false ∧ (Instr.prn 256).wf = false ∧ (Instr.push 256).wf = false ∧
    (Instr.pop 256).wf = false ∧ (Instr.call 256).wf = false ∧ (Instr.jmp 256).wf = false ∧
    (Instr.jeq 256).wf = false ∧ (Instr.jne 256).wf = false := by decide

/-- Indices 8..255 are encodings (R22), so they are well formed. -/
theorem test_wf_admits_every_operand_byte :
    (Instr.add 255 8).wf = true ∧ (Instr.jne 255).wf = true ∧ Instr.hlt.wf = true := by decide

/-! ### Decoding: words written out from 30_encoding.md sections 3 and 7 -/

theorem test_decode_add : decode [0b10100000#8, 0, 1] = .ok (.add 0 1, []) := rfl
theorem test_decode_mul : decode [0b10100010#8, 5, 6] = .ok (.mul 5 6, []) := rfl
theorem test_decode_cmp : decode [0b10100111#8, 7, 0] = .ok (.cmp 7 0, []) := rfl
theorem test_decode_ldi : decode [0b10000010#8, 5, 255] = .ok (.ldi 5 255, []) := rfl
theorem test_decode_prn : decode [0b01000111#8, 3] = .ok (.prn 3, []) := rfl
theorem test_decode_hlt : decode [0b00000001#8, 9] = .ok (.hlt, [9]) := rfl
theorem test_decode_push : decode [0b01000101#8, 7] = .ok (.push 7, []) := rfl
theorem test_decode_pop : decode [0b01000110#8, 1, 9] = .ok (.pop 1, [9]) := rfl
theorem test_decode_call : decode [0b01010000#8, 2] = .ok (.call 2, []) := rfl
theorem test_decode_ret : decode [0b00010001#8] = .ok (.ret, []) := rfl
theorem test_decode_jmp : decode [0b01010100#8, 8] = .ok (.jmp 8, []) := rfl
theorem test_decode_jeq : decode [0b01010101#8, 3] = .ok (.jeq 3, []) := rfl
theorem test_decode_jne : decode [0b01010110#8, 3] = .ok (.jne 3, []) := rfl

/-- 95_test_vectors.md section 2.1: alias bytes are rejected, each by its kind. -/
theorem test_decode_aliases_rejected :
    decode [0x20, 0, 1] = .error (.opcode (.unsupportedALU 0x20)) ∧
    decode [0xB0, 0, 1] = .error (.opcode (.unsupportedALU 0xB0)) ∧
    decode [0xFF, 0, 0] = .error (.opcode (.unsupportedALU 0xFF)) ∧
    decode [0x00, 0, 0] = .error (.opcode (.unsupportedInstruction 0x00)) ∧
    decode [0x02, 0, 5] = .error (.opcode (.unsupportedInstruction 0x02)) ∧
    decode [0xC2, 0, 5] = .error (.opcode (.unsupportedInstruction 0xC2)) := ⟨rfl, rfl, rfl, rfl, rfl, rfl⟩

theorem test_decode_truncated :
    decode [] = .error .truncated ∧ decode [0xA0, 1] = .error .truncated ∧ decode [0x47] = .error .truncated :=
  ⟨rfl, rfl, rfl⟩

/-- 95_test_vectors.md section 2.1, rows 0x82, 0x45 and 0xFF: the four fields. -/
theorem test_decoder_fields :
    decodeOpcode 0x82 = ⟨2, false, false, 2, .ldi⟩ ∧ decodeOpcode 0x45 = ⟨1, false, false, 5, .push⟩ ∧
    decodeOpcode 0x11 = ⟨0, false, true, 1, .ret⟩ ∧ decodeOpcode 0xFF = ⟨3, true, true, 15, .invalidAlu⟩ := by
  decide

theorem test_decode_table_words :
    decodeTableWord 24 0x0100A0 = some (.add 0 1) ∧ decodeTableWord 16 0x0347 = some (.prn 3) ∧
    decodeTableWord 8 0x01 = some .hlt ∧ decodeTableWord 8 0x00 = none := by decide

/-! ### One step of each instruction, against 95_test_vectors.md section 2 -/

/-- A RUNNING state at pc with the given registers and FL, and bytes placed at pc. -/
def at_ (pc : Byte) (regs : Vector Byte 8) (fl : Byte) (bytes : List Byte) : State :=
  { State.reset with pc := pc, regs := regs, fl := fl, mem := Memory.place [] pc.toNat bytes }

/-- The registers x0, x1, x2, x3 and SP, the others zero. -/
def rv (x0 x1 x2 x3 sp : Byte) : Vector Byte 8 := #v[x0, x1, x2, x3, 0, 0, 0, sp]

/-- What one step leaves, seen through `f`. -/
def after {α : Type} (f : State → α) (s : State) : Option α := (nextState? (step s)).map f

/-- ADD-3: 200 + 100 wraps to 44, and pc moves by 3. -/
theorem test_add_wraps :
    after (fun t => (t.regs[0], t.regs[1], t.pc)) (at_ 10 (rv 200 100 0 0 255) 0 [0xA0, 0, 1]) =
      some (44, 100, 13) := by decide
/-- ADD-12: the second operand's index is checked too, and nothing is written. -/
theorem test_add_bad_second_register :
    after (fun t => (t.regs[1], t.pc, t.fault)) (at_ 10 (rv 0 5 0 0 255) 0 [0xA0, 1, 9]) =
      some (5, 10, some ⟨2, 9, 10⟩) := by decide
/-- MUL-3: 255 × 255 keeps the low byte 1. -/
theorem test_mul_keeps_low_byte :
    after (fun t => (t.regs[0], t.fl)) (at_ 10 (rv 255 255 0 0 255) 2 [0xA2, 0, 1]) = some (1, 2) := by decide
/-- MUL-8: source is destination. -/
theorem test_mul_squares :
    after (fun t => t.regs[2]) (at_ 10 (rv 0 0 12 0 255) 0 [0xA2, 2, 2]) = some 144 := by decide
/-- CMP-6: 128 > 127, so the comparison is unsigned. -/
theorem test_cmp_unsigned :
    after (fun t => (t.fl, t.regs[0])) (at_ 10 (rv 128 127 0 0 255) 0 [0xA7, 0, 1]) = some (2, 128) := by decide
/-- CMP-10: the old flag goes. -/
theorem test_cmp_replaces_flags :
    after (fun t => t.fl) (at_ 10 (rv 1 2 0 0 255) 1 [0xA7, 0, 1]) = some 4 := by decide
/-- LDI-4: LDI into R7 moves the stack pointer. -/
theorem test_ldi_moves_sp :
    after (fun t => (t.sp, t.pc)) (at_ 10 (rv 0 0 0 0 255) 0 [0x82, 7, 10]) = some (10, 13) := by decide
/-- F-10: at 253 the advance faults and the write stays. -/
theorem test_ldi_advance_faults :
    after (fun t => (t.regs[1], t.pc, t.fault)) (at_ 253 (rv 0 0 0 0 255) 0 [0x82, 1, 5]) =
      some (5, 253, some ⟨1, 256, 253⟩) := by decide
/-- PRN-1. -/
theorem test_prn_emits :
    after (fun t => (t.out, t.pc)) (at_ 10 (rv 72 0 0 0 255) 0 [0x47, 0]) = some ([72], 12) := by decide
/-- PRN-5: nothing is output. -/
theorem test_prn_bad_register :
    after (fun t => (t.out, t.fault)) (at_ 10 (rv 72 0 0 0 255) 0 [0x47, 8]) = some ([], some ⟨2, 8, 10⟩) := by
  decide
/-- HLT-3. -/
theorem test_hlt_advances :
    after (fun t => (t.halt, t.pc, t.runState)) (at_ 253 (rv 0 0 0 0 255) 0 [0x01]) = some (true, 254, .halted) := by
  decide
/-- HLT-4: the operand fetch faults at 254. -/
theorem test_hlt_at_254_faults :
    after (fun t => (t.halt, t.pc, t.fault)) (at_ 254 (rv 0 0 0 0 255) 0 [0x01]) =
      some (false, 254, some ⟨1, 256, 254⟩) := by decide
/-- PUSH-4: SP wraps from 0 to 255. -/
theorem test_push_wraps :
    after (fun t => (t.sp, t.readByte 255, t.pc)) (at_ 10 (rv 77 0 0 0 0) 0 [0x45, 0]) = some (255, 77, 12) := by
  decide
/-- PUSH-9: PUSH R7 stores the decremented SP. -/
theorem test_push_sp :
    after (fun t => (t.sp, t.readByte 254)) (at_ 10 (rv 0 0 0 0 255) 0 [0x45, 7]) = some (254, 254) := by decide
/-- POP-3: here SP = 0, where the placed instruction's first byte is read. -/
theorem test_pop_reads_at_sp :
    after (fun t => (t.regs[1], t.sp)) (at_ 0 (rv 0 0 0 0 0) 0 [0x46, 1]) = some (0x46, 1) := by decide
/-- POP-10: POP R7 ends as sp_inc of the popped byte (here the byte 255 at pc + 2). -/
theorem test_pop_sp :
    after (fun t => t.sp) (at_ 10 (rv 0 0 0 0 12) 0 [0x46, 7, 255]) = some 0 := by decide
/-- CALL-1. -/
theorem test_call_pushes_next_address :
    after (fun t => (t.sp, t.readByte 254, t.pc)) (at_ 6 (rv 0 20 0 0 255) 0 [0x50, 1]) = some (254, 8, 20) := by
  decide
/-- CALL-4: CALL R7 jumps to the decremented SP. -/
theorem test_call_sp :
    after (fun t => (t.readByte 199, t.pc)) (at_ 10 (rv 0 0 0 0 200) 0 [0x50, 7]) = some (12, 199) := by decide
/-- RET-2 at modulus 256: SP wraps from 255 to 0 and pc takes the byte there. -/
theorem test_ret_wraps :
    after (fun t => (t.sp, t.pc)) (at_ 20 (rv 0 0 0 0 255) 0 [0x11]) = some (0, 0) := by decide
/-- RET-5: the byte at SP, here 21 past the opcode, is the new pc. -/
theorem test_ret_takes_the_byte :
    after (fun t => (t.sp, t.pc)) (at_ 20 (rv 0 0 0 0 21) 0 [0x11, 255]) = some (22, 255) := by decide
/-- JMP-4: to itself. -/
theorem test_jmp_to_itself :
    after (fun t => t.pc) (at_ 10 (rv 0 10 0 0 255) 0 [0x54, 1]) = some 10 := by decide
/-- JMP-6. -/
theorem test_jmp_bad_register :
    after (fun t => (t.pc, t.fault)) (at_ 10 (rv 0 0 0 0 255) 0 [0x54, 8]) = some (10, some ⟨2, 8, 10⟩) := by decide
/-- JEQ-4: FL = L, not taken. -/
theorem test_jeq_not_taken :
    after (fun t => t.pc) (at_ 20 (rv 0 0 0 40 255) 4 [0x55, 3]) = some 22 := by decide
/-- JEQ-6: not taken, so the bad index is not checked. -/
theorem test_jeq_not_taken_unchecked :
    after (fun t => (t.pc, t.fault)) (at_ 20 (rv 0 0 0 0 255) 4 [0x55, 8]) = some (22, none) := by decide
/-- JNE-1: FL = 0, taken. -/
theorem test_jne_taken_before_compare :
    after (fun t => t.pc) (at_ 20 (rv 0 0 0 40 255) 0 [0x56, 3]) = some 40 := by decide
/-- JNE-6: taken, so the bad index faults. -/
theorem test_jne_taken_checked :
    after (fun t => (t.pc, t.fault)) (at_ 20 (rv 0 0 0 0 255) 4 [0x56, 8]) = some (20, some ⟨2, 8, 20⟩) := by decide

/-- F-3 and F-6: alias bytes fault when dispatched. -/
theorem test_invalid_opcodes_fault :
    after (fun t => (t.pc, t.fault)) (at_ 10 (rv 0 0 0 0 255) 0 [0x20, 0, 1]) = some (10, some ⟨3, 32, 10⟩) ∧
    after (fun t => (t.pc, t.fault)) (at_ 10 (rv 0 0 0 0 255) 0 [0xC2, 0, 5]) = some (10, some ⟨4, 194, 10⟩) := by
  decide
/-- F-7: the operand fetch comes before the dispatch. -/
theorem test_fetch_fault_before_decode_fault :
    after (fun t => t.fault) (at_ 255 (rv 0 0 0 0 255) 0 [0x00]) = some (some ⟨1, 256, 255⟩) := by decide
/-- PUSH-8 and POP-6, at modulus 255. -/
theorem test_modulus_255 :
    ((nextState? (execPushWith 255 0 (at_ 10 (rv 77 0 0 0 0) 0 []))).map fun t => (t.sp, t.readByte 254)) =
      some (254, 77) ∧
    ((nextState? (execPopWith 255 1 (at_ 10 (rv 0 0 0 0 255) 0 []))).map State.sp) = some 1 := by decide

theorem test_fetch_word_runs :
    after (fun t => (t.regs[0], t.pc)) (State.reset.withFetchWord 24 0x080082) = some (8, 3) := by decide

/-- The program of 95_test_vectors.md E8 in memory after the load, `init_mem` above it. -/
theorem test_launch :
    ((State.launch (Vector.replicate 7 9) (fun _ => 5) [0x82, 0, 8]).map fun s =>
      (s.readByte 2, s.readByte 3, s.regs[0], s.sp)) = some (8, 5, 9, 255) := by decide

theorem test_launch_refuses_no_program : State.launch Config.initGpr Config.unlisted [] = none := by decide

/-! ### Witnesses: for each statement with hypotheses, concrete values that meet them together, one for each clause and at the
edge of its range -/

/-- A RUNNING state at pc with two distinct registers and the bytes placed at pc. -/
def w (pc : Byte) (bytes : List Byte) : State := at_ pc (rv 5 9 5 40 255) 0 bytes

theorem witness_DecodeOfEncodeIsTheInstruction : (Instr.add 255 255).wf = true ∧ Instr.ret.wf = true := by decide

theorem witness_EncodeOfDecodeIsTheBytes : decode [0xA0, 255, 255, 7] = .ok (.add 255 255, [7]) := rfl

theorem witness_AddWritesTheSumModulo256 : (7 : Nat) < 8 ∧ (0 : Nat) < 8 ∧
    (nextState? (exec (.add 7 0) (w 0 []))).map State.sp = some 4 := by decide

theorem witness_MulWritesTheProductModulo256 : (7 : Nat) < 8 ∧ (1 : Nat) < 8 ∧
    (nextState? (exec (.mul 7 1) (w 0 []))).map State.sp = some 247 := by decide

theorem witness_CmpSetsOneFlagByUnsignedOrder :
    ((w 0 []).regs[0].toNat = (w 0 []).regs[2].toNat ∧ (0 : Nat) < 8 ∧ (2 : Nat) < 8) ∧
    ((w 0 []).regs[7].toNat > (w 0 []).regs[0].toNat ∧ (7 : Nat) < 8) ∧
    ((w 0 []).regs[0].toNat < (w 0 []).regs[7].toNat) ∧
    ((8 : Nat) > 7 ∧ (8 : Nat) < 256 ∧ (255 : Nat) < 256) ∧ ((7 : Nat) ≤ 7 ∧ (255 : Nat) > 7) := by decide

theorem witness_LdiStoresItsLiteral : ((7 : Nat) < 8) ∧ ((255 : Nat) > 7 ∧ (255 : Nat) < 256) ∧
    ((w 252 [0x82, 7, 5]).runState = .running ∧ (w 252 [0x82, 7, 5]).pc.toNat ≤ 252 ∧
      Memory.read (w 252 [0x82, 7, 5]).mem (w 252 [0x82, 7, 5]).pc.toNat = 0x82#8 ∧
      Memory.read (w 252 [0x82, 7, 5]).mem ((w 252 [0x82, 7, 5]).pc.toNat + 1) = BitVec.ofNat 8 7 ∧
      Memory.read (w 252 [0x82, 7, 5]).mem ((w 252 [0x82, 7, 5]).pc.toNat + 2) = 5) := by decide

theorem witness_PrnAppendsTheRegister : (7 : Nat) < 8 ∧
    (nextState? (exec (.prn 7) (w 0 []))).map State.out = some [255] := by decide

theorem witness_HltHaltsAndStillAdvances :
    ((w 253 [0x01]).runState = .running ∧ Memory.read (w 253 [0x01]).mem (w 253 [0x01]).pc.toNat = 0x01#8 ∧
      (w 253 [0x01]).pc.toNat ≤ 253) ∧
    ((w 254 [0x01]).runState = .running ∧ Memory.read (w 254 [0x01]).mem (w 254 [0x01]).pc.toNat = 0x01#8 ∧
      254 ≤ (w 254 [0x01]).pc.toNat) := by decide

theorem witness_PushDecrementsThenStores : (7 : Nat) < 8 ∧
    (nextState? (exec (.push 7) (w 0 []))).map (fun t => t.readByte 254) = some 254 := by decide

theorem witness_PopLoadsThenIncrements : (7 : Nat) < 8 ∧
    (nextState? (exec (.pop 7) (w 255 [99]))).map State.sp = some 100 := by decide

theorem witness_CallPushesTheReturnAddress : (7 : Nat) < 8 ∧
    (nextState? (exec (.call 7) (w 6 []))).map (fun t => (t.pc, t.readByte 254)) = some (254, 8) := by decide

theorem witness_JmpSetsPcToTheRegister :
    ((7 : Nat) < 8) ∧ ((255 : Nat) > 7 ∧ (255 : Nat) < 256) ∧ ((3 : Nat) < 8 ∧ (w 40 []).regs[3] = (w 40 []).pc) := by decide

theorem witness_JeqJumpsIffEqual :
    ((7 : Nat) < 8 ∧ (at_ 20 (rv 0 0 0 40 255) 1 []).fl.getLsbD 0 = true) ∧
    ((at_ 20 (rv 0 0 0 40 255) 4 []).fl.getLsbD 0 = false) ∧ ((8 : Nat) > 7) := by decide

theorem witness_JneJumpsIffNotEqual :
    ((7 : Nat) < 8 ∧ (at_ 20 (rv 0 0 0 40 255) 0 []).fl.getLsbD 0 = false) ∧
    ((at_ 20 (rv 0 0 0 40 255) 1 []).fl.getLsbD 0 = true) ∧ ((8 : Nat) > 7) := by decide

theorem witness_RegisterOperandIsCheckedBeforeAnyWrite :
    ((accessedRegs ((w 0 []).fl.getLsbD 0) (.add 7 8)).find? (fun r => decide (7 < r)) = some 8) ∧
    (∀ r ∈ accessedRegs ((w 0 []).fl.getLsbD 0) (.jeq 8), r ≤ 7) ∧
    (∀ r ∈ accessedRegs ((w 0 []).fl.getLsbD 0) (.add 7 7), r ≤ 7) := by decide

theorem witness_OnlyListedRegistersChange :
    (∃ t, exec (.push 0) (w 0 []) = .next t) ∧ (6 : Nat) < 8 ∧ (6 : Nat) ∉ writtenRegs (.push 0) :=
  ⟨⟨_, rfl⟩, by decide, by decide⟩

theorem witness_OnlyCmpWritesFl :
    ((∀ a b : Nat, Instr.add 0 1 ≠ .cmp a b) ∧ ∃ t, exec (.add 0 1) (w 0 []) = .next t) ∧ ((7 : Nat) < 8) :=
  ⟨⟨by simp, _, rfl⟩, by decide⟩

theorem witness_OnlyHltSetsTheHaltFlag :
    ((∃ t, exec (.pop 1) (w 0 []) = .next t) ∧ Instr.pop 1 ≠ .hlt) ∧ (∃ t, step (w 0 [0x01]) = .next t) ∧
    ((w 0 []).setHalt.halt = true) := ⟨⟨⟨_, rfl⟩, by decide⟩, ⟨_, rfl⟩, rfl⟩

theorem witness_OnlyPrnAppendsOutput :
    ((∀ a : Nat, Instr.hlt ≠ .prn a) ∧ ∃ t, exec .hlt (w 0 []) = .next t) ∧
    ((∃ t, exec (.prn 7) (w 0 []) = .next t) ∧ (7 : Nat) < 8) ∧
    ((∃ t, exec (.prn 8) (w 0 []) = .next t) ∧ 8 ≤ (8 : Nat)) :=
  ⟨⟨by simp, _, rfl⟩, ⟨⟨_, rfl⟩, by decide⟩, ⟨_, rfl⟩, by decide⟩

theorem witness_OnlyPushAndCallStore :
    ((∀ a : Nat, Instr.pop 1 ≠ .push a) ∧ (∀ a : Nat, Instr.pop 1 ≠ .call a) ∧
      ∃ t, exec (.pop 1) (w 0 []) = .next t) ∧
    ((∃ t, exec (.push 7) (w 0 []) = .next t) ∧ spDec Config.spModulus (w 0 []).sp = 254 ∧
      (255 : Nat) ≠ (254 : Byte).toNat) :=
  ⟨⟨by simp, by simp, _, rfl⟩, ⟨_, rfl⟩, by decide, by decide⟩

theorem witness_OnlyTheFiveJumpsWritePc :
    (decodeOpcode (opcodeOf (Instr.push 0).insn)).pcIsSetByInstruction = false ∧
    ∃ t, exec (.push 0) (w 0 []) = .next t := ⟨by decide, _, rfl⟩

theorem witness_OnlyJeqAndJneReadFlAndOnlyBitE :
    ((∀ a : Nat, Instr.cmp 0 1 ≠ .jeq a) ∧ (∀ a : Nat, Instr.cmp 0 1 ≠ .jne a)) ∧
    ((4 : Byte).getLsbD 0 = (w 0 []).fl.getLsbD 0) := ⟨⟨by simp, by simp⟩, by decide⟩

theorem witness_OnlyListedRegistersAreRead :
    ((7 : Nat) < 8 ∧ 7 ∉ readRegs (.add 0 1) ∧ 7 ∉ writtenRegs (.add 0 1)) ∧
    (0 ∉ readRegs (.pop 0) ∧ 0 ∈ writtenRegs (.pop 0)) := by decide

theorem witness_OnlyStackInstructionsUseMemory :
    (∀ a : Nat, Instr.prn 0 ≠ .push a) ∧ (∀ a : Nat, Instr.prn 0 ≠ .pop a) ∧ (∀ a : Nat, Instr.prn 0 ≠ .call a) ∧
    Instr.prn 0 ≠ .ret := by simp

theorem witness_OutputHistoryIsNeverRead :
    (step (w 0 []).setHalt = .fault .halted) ∧ ∃ t, step (w 0 [0x47, 7]) = .next t := ⟨rfl, _, rfl⟩

/-- The fetch's two faults, the two decode faults, and the three ways an instruction ends its step. -/
theorem witness_StepRunsTheDecodedInstruction :
    ((w 255 []).runState = .running ∧ (w 255 []).pc.toNat = 255) ∧ ((w 254 []).pc.toNat = 254) ∧
    ((w 253 [0xA1]).pc.toNat < 254 ∧
      (decodeOpcode (Memory.read (w 253 [0xA1]).mem (w 253 [0xA1]).pc.toNat)).insn = .invalidAlu) ∧
    ((decodeOpcode (Memory.read (w 253 [0x00]).mem (w 253 [0x00]).pc.toNat)).insn = .invalidControl) ∧
    (decode [0xA0, 0, 8] = .ok (.add 0 8, []) ∧
      ((nextState? (exec (.add 0 8) (w 253 [0xA0, 0, 8]))).map fun t => t.fault.isSome) = some true) ∧
    (decode [0x54, 3, 0] = .ok (.jmp 3, [0]) ∧ (decodeOpcode 0x54).pcIsSetByInstruction = true ∧
      ((nextState? (exec (.jmp 3) (w 253 [0x54, 3, 0]))).map State.fault) = some none) ∧
    (decode [0x47, 0, 0] = .ok (.prn 0, [0]) ∧ (decodeOpcode 0x47).pcIsSetByInstruction = false ∧
      253 + (decodeOpcode 0x47).operandCount.toNat + 1 ≤ 255) ∧
    (decode [0x82, 1, 5] = .ok (.ldi 1 5, []) ∧ 253 + (decodeOpcode 0x82).operandCount.toNat + 1 > 255) ∧
    (((nextState? (step (w 253 [0x01]))).map fun t => (t.halt, t.fault)) = some (true, none)) := by
  refine ⟨by decide, by decide, by decide, by decide, ⟨rfl, by decide⟩, ⟨rfl, by decide⟩, ⟨rfl, by decide⟩,
    ⟨rfl, by decide⟩, by decide⟩

theorem witness_UnsupportedAluOpcodeFaults :
    (w 253 [0xA1]).runState = .running ∧ (w 253 [0xA1]).pc.toNat ≤ 253 ∧
    Memory.read (w 253 [0xA1]).mem (w 253 [0xA1]).pc.toNat = 0xA1#8 ∧ (0xA1 : Byte).getLsbD 5 = true ∧
    (0xA1 : Byte) ≠ 0xA0 ∧ (0xA1 : Byte) ≠ 0xA2 ∧ (0xA1 : Byte) ≠ 0xA7 := by decide

theorem witness_UnsupportedControlOpcodeFaults :
    ((w 253 [0x00]).runState = .running ∧ (w 253 [0x00]).pc.toNat ≤ 253 ∧
      Memory.read (w 253 [0x00]).mem (w 253 [0x00]).pc.toNat = 0x00#8 ∧ (0x00 : Byte).getLsbD 5 = false ∧
      (0x00 : Byte) ∉ ([0x82, 0x47, 0x01, 0x45, 0x46, 0x50, 0x11, 0x54, 0x55, 0x56] : List Byte)) ∧
    ((decodeOpcode 0x47).operandCount = 1) ∧ ((decodeOpcode 0x11).operandCount = 0) ∧
    ((decodeOpcode (opcodeOf (Instr.prn 0).insn)).isAluOp = false ∧ ∃ t, exec (.prn 0) (w 0 []) = .next t) :=
  ⟨by decide, by decide, by decide, by decide, _, rfl⟩

theorem witness_OperandFetchFaultsAboveTheTop :
    ((w 254 []).runState = .running ∧ 254 ≤ (w 254 []).pc.toNat) ∧
    (((nextState? (step (w 253 [0xA0, 0, 1]))).map fun t => t.fault.map FaultRecord.code) = some (some 1)) := by
  decide

theorem witness_AdvanceMovesPcByTheLength :
    (((nextState? (step (w 253 [0x45, 0]))).map State.fault) = some none) ∧
    (decodeOpcode (Memory.read (w 253 [0x45, 0]).mem (w 253 [0x45, 0]).pc.toNat)).pcIsSetByInstruction = false := by
  decide

theorem witness_FaultsArePrecise :
    (((nextState? (step (w 253 [0x82, 1, 5]))).map fun t => t.fault.isSome) = some true) ∧
    (((nextState? (step (w 253 [0x82, 8, 5]))).map fun t => t.fault.isSome) = some true) := by decide

theorem witness_FaultedIsTerminalUntilReset :
    ((w 0 []).raise (.registerBounds 8)).fault ≠ none ∧ ∃ t, step (w 0 [0x01]) = .next t := ⟨by decide, _, rfl⟩

theorem witness_ResetValues : (6 : Nat) < 7 := by decide

theorem witness_LaunchLoadsTheProgram :
    ((1 : Nat) ≤ ([0x01] : List Byte).length ∧ ([0x01] : List Byte).length ≤ 256) ∧ (255 : Nat) < 256 ∧
    ∃ s, State.launch Config.initGpr (fun _ => 5) [0x01] = some s := ⟨by decide, by decide, _, rfl⟩

theorem witness_InvariantHoldsAtReset : Memory.wf [(0, 1), (255, 7)] := by decide

theorem witness_EveryStepKeepsTheInvariant :
    (w 253 [0x45, 0]).Inv ∧ (∃ t, step (w 253 [0x45, 0]) = .next t) ∧ ∃ t, stepAt 255 (w 253 [0x45, 0]) = .next t :=
  ⟨by decide, ⟨_, rfl⟩, _, rfl⟩

theorem witness_WriteChangesItsOneCell : (255 : Nat) ≠ 254 := by decide

theorem witness_CanonicalMemoryIsDeterminedByItsBytes :
    Memory.wf [(0, 1), (255, 7)] ∧ Memory.write (Memory.write [] 255 7) 0 1 = [(0, 1), (255, 7)] := by decide

theorem witness_StackPointerArithmetic :
    ((255 : Nat) = 255 ∨ (255 : Nat) = 256) ∧ spDec 255 0 = 254 ∧ spInc 255 254 = 0 ∧ spInc 255 255 = 1 ∧
    spDec 256 0 = 255 ∧ spInc 256 255 = 0 := by decide

theorem witness_PushThenPopRestores : (6 : Nat) < 7 ∧ (0 : Nat) < 7 ∧ ((255 : Nat) = 255 ∨ (255 : Nat) = 256) := by
  decide

theorem witness_CallThenRetResumes :
    (7 : Nat) < 8 ∧ ∃ t u : State, execCallWith 256 7 (w 0 []) = .next t ∧ u.regs[7] = t.regs[7] ∧ u ≠ t ∧
      Memory.read u.mem t.regs[7].toNat = Memory.read t.mem t.regs[7].toNat :=
  ⟨by decide, _, ((w 0 []).pushValue 256 fun s => s.nextPc 1).setFl 4, rfl, by decide, by decide, by decide⟩

theorem witness_LdiThenPrnEmitsTheLiteral : (7 : Nat) < 8 := by decide

theorem witness_CompareDecidesTheBranches :
    (0 : Nat) < 8 ∧ (7 : Nat) < 8 ∧ (w 0 []).regs[0] = (w 0 []).regs[2] ∧ (w 0 []).regs[0] ≠ (w 0 []).regs[7] := by
  decide

theorem witness_JumpToSelfRunsForEver :
    (3 : Nat) < 8 ∧ (w 40 [0x54, 3]).runState = .running ∧ (w 40 [0x54, 3]).pc.toNat ≤ 253 ∧
    Memory.read (w 40 [0x54, 3]).mem (w 40 [0x54, 3]).pc.toNat = 0x54#8 ∧
    Memory.read (w 40 [0x54, 3]).mem ((w 40 [0x54, 3]).pc.toNat + 1) = BitVec.ofNat 8 3 ∧
    (w 40 [0x54, 3]).regs[3] = (w 40 [0x54, 3]).pc := by decide

/-- 95_test_vectors.md P9's shape: a PUSH over the byte the next fetch reads. -/
theorem witness_StoreIsSeenByTheNextFetch :
    (∃ t, step (at_ 6 (rv 1 0 0 0 9) 0 [0x45, 0, 0x47]) = .next t ∧ t.fetch = .ok (1, 0, 0) ∧
      (8 : Byte).toNat = t.pc.toNat) ∧
    Transfer.write 8 1 ∈ (at_ 6 (rv 1 0 0 0 9) 0 [0x45, 0, 0x47]).transfers :=
  ⟨⟨_, rfl, rfl, rfl⟩, by decide⟩

/-- A RUNNING state at 10 with SP `sp` and a PUSH, POP or other opcode placed there, for the two moduli. -/
def wsp (sp : Byte) (bytes : List Byte) : State := at_ 10 (rv 5 9 5 40 sp) 0 bytes

theorem witness_StackInstructionsAtEitherModulus :
    (7 : Nat) < 8 ∧ ((255 : Nat) = 255 ∨ (255 : Nat) = 256) ∧
    (nextState? (execAt 255 (.push 0) (wsp 0 []))).map State.sp = some 254 ∧
    (nextState? (execAt 256 (.push 0) (wsp 0 []))).map State.sp = some 255 ∧
    (nextState? (execAt 255 .ret (wsp 254 []))).map State.sp = some 0 := by decide

theorem witness_StepAtEitherModulusRunsTheInstruction :
    (wsp 0 [0x45, 0]).runState = .running ∧ (wsp 0 [0x45, 0]).current = some (.push 0) ∧
    (wsp 0 [0x00]).current = none ∧
    (nextState? (stepAt 255 (wsp 0 [0x45, 0]))).map (fun t => (t.pc, t.sp, t.readByte 254)) = some (12, 254, 5) := by
  decide

theorem witness_ModuliDifferOnlyWhereTheStackPointerWraps :
    ((wsp 1 []).sp ≠ 0) ∧ ((wsp 253 []).sp.toNat ≤ 253 ∧ (6 : Nat) ≠ 7) ∧
    (((at_ 253 (rv 0 0 0 0 253) 0 [253]).readByte 253).toNat ≤ 253) := by decide

theorem witness_NoStepAtModulus255WritesAddress255 :
    (∃ t, stepAt 255 (wsp 0 [0x45, 0]) = .next t) ∧ Transfer.write 254 5 ∈ (wsp 0 [0x45, 0]).transfersAt 255 :=
  ⟨⟨_, rfl⟩, by decide⟩

theorem witness_TransfersAccountForMemory :
    (∃ t, stepAt 255 (w 10 [0x45, 0]) = .next t) ∧ Transfer.read 10 0x45 ∈ (w 10 [0x45, 0]).transfersAt 255 :=
  ⟨⟨_, rfl⟩, by decide⟩

theorem witness_OutPortCarriesTheEmittedByte :
    (∃ t, step (w 10 [0x47, 7]) = .next t) ∧ (w 10 [0x47, 7]).outPort = some 255 := ⟨⟨_, rfl⟩, by decide⟩

theorem witness_StatusPortsFollowTheStep :
    (∃ t, step (w 10 [0x01]) = .next t) ∧ (w 10 [0x01]).current = some .hlt ∧
    ((nextState? (step (w 10 [0x00]))).map fun t => t.fault.isSome) = some true :=
  ⟨⟨_, rfl⟩, by decide, by decide⟩

end Sys2Proof.Tests
end

section
/-! PROOFS of the family 10_state.md: FL and the halt flag (R27, R30). -/

namespace Sys2Proof.Machine

/-! ### What an instruction leaves of FL, the halt flag and the output history -/

/-- Each of the three fields has one writer. A register check that faults writes the fault record alone, so it
keeps all three even in the writer. -/
theorem execAt_keeps_fl_halt_out {modulus : Nat} {i : Instr} {s t : State} (h : execAt modulus i s = .next t) :
    ((∀ a b : Nat, i ≠ .cmp a b) → t.fl = s.fl) ∧ (i ≠ .hlt → t.halt = s.halt) ∧
    ((∀ a : Nat, i ≠ .prn a) → t.out = s.out) := by
  rcases execAt_cases h with ⟨r, _, _, rfl⟩ | heffect
  · exact ⟨fun _ => rfl, fun _ => rfl, fun _ => rfl⟩
  cases i
  case cmp a b =>
    obtain ⟨_, _, rfl⟩ := heffect
    exact ⟨fun hcmp => absurd rfl (hcmp a b), fun _ => rfl, fun _ => rfl⟩
  case hlt =>
    subst heffect
    exact ⟨fun _ => rfl, fun hhlt => absurd rfl hhlt, fun _ => rfl⟩
  case prn a =>
    obtain ⟨_, rfl⟩ := heffect
    exact ⟨fun _ => rfl, fun _ => rfl, fun hprn => absurd rfl (hprn a)⟩
  case add | mul => obtain ⟨_, _, rfl⟩ := heffect; exact ⟨fun _ => rfl, fun _ => rfl, fun _ => rfl⟩
  case ret => subst heffect; exact ⟨fun _ => rfl, fun _ => rfl, fun _ => rfl⟩
  case jeq | jne => rcases heffect with ⟨_, _, rfl⟩ | ⟨_, rfl⟩ <;> exact ⟨fun _ => rfl, fun _ => rfl, fun _ => rfl⟩
  all_goals obtain ⟨_, rfl⟩ := heffect; exact ⟨fun _ => rfl, fun _ => rfl, fun _ => rfl⟩

theorem exec_keeps_fl_halt_out {i : Instr} {s t : State} (h : exec i s = .next t) :
    ((∀ a b : Nat, i ≠ .cmp a b) → t.fl = s.fl) ∧ (i ≠ .hlt → t.halt = s.halt) ∧
    ((∀ a : Nat, i ≠ .prn a) → t.out = s.out) :=
  execAt_keeps_fl_halt_out (exec_eq_execAt ▸ h)

/-! ### CMP and FL -/

theorem compareFlags_oneHot (u v : Byte) :
    compareFlags u v = 0b00000001#8 ∨ compareFlags u v = 0b00000010#8 ∨ compareFlags u v = 0b00000100#8 := by
  unfold compareFlags
  split
  · exact .inl rfl
  split
  · exact .inr (.inl rfl)
  · exact .inr (.inr rfl)

/-- The whole answer of a CMP whose operands pass their check (R86). -/
theorem exec_cmp_of_lt {a b : Nat} (ha : a < 8) (hb : b < 8) (s : State) :
    exec (.cmp a b) s = .next (s.setFl (compareFlags (s.reg ⟨a, ha⟩) (s.reg ⟨b, hb⟩))) := by
  show execCmp a b s = _
  rw [execCmp, withReg_of_lt ha, withReg_of_lt hb]

/-! ### The halt flag and the step -/

theorem State.halt_of_step {s t : State} (h : step s = .next t) : s.halt = false :=
  (State.runState_running.mp (step_cases h).1).2

/-- Which stop it is turns on the fault record, which decides first (R31). -/
theorem step_stops_of_halt {s : State} (h : s.halt = true) : step s = .fault .halted ∨ step s = .fault .faulted := by
  by_cases hf : s.fault = none
  · exact .inl (stepBy_of_halted (State.runState_halted.mpr ⟨hf, h⟩))
  · exact .inr (stepBy_of_faulted (State.runState_faulted.mpr hf))

/-! ### The obligations -/

/-- Settles O20: the frame of FL, and for a CMP its whole answer, in which the old FL byte does not occur. -/
theorem onlyCmpWritesFl : Obligations.OnlyCmpWritesFl := by
  constructor
  · intro i s t hcmp h
    obtain ⟨hfl, -, -⟩ := exec_keeps_fl_halt_out h
    exact hfl hcmp
  · intro a b s ha hb
    exact ⟨_, exec_cmp_of_lt ha hb s, compareFlags_oneHot _ _, fun f => exec_cmp_of_lt ha hb { s with fl := f }⟩

/-- Settles O21: the reset value, the frame of the halt flag, and the run state that a set halt flag forces. -/
theorem onlyHltSetsTheHaltFlag : Obligations.OnlyHltSetsTheHaltFlag := by
  refine ⟨State.resetWith_halt, fun s => ⟨s.setHalt, rfl, State.setHalt_halt s⟩, ?frame, ?start, ?stop⟩
  case frame =>
    intro i s t h hhlt
    obtain ⟨-, hhalt, -⟩ := exec_keeps_fl_halt_out h
    exact hhalt hhlt
  case start => exact fun _ _ => State.halt_of_step
  case stop => exact fun _ => step_stops_of_halt

end Sys2Proof.Machine
end

section
/-! Family 20_memory.md: a write as seen by the reads after it, at its own cell and at any other. -/

namespace Sys2Proof.Machine

theorem Memory.read_write_same (m : Memory) (addr : Nat) (v : Byte) : Memory.read (Memory.write m addr v) addr = v := by
  rw [Memory.read_write, if_pos rfl]

theorem Memory.read_write_of_ne {addr other : Nat} (h : other ≠ addr) (m : Memory) (v : Byte) :
    Memory.read (Memory.write m addr v) other = Memory.read m other := by
  rw [Memory.read_write, if_neg h]

/-- Settles O41: the read law of a write, at the written cell and at every other. -/
theorem writeChangesItsOneCell : Obligations.WriteChangesItsOneCell := fun m addr v =>
  ⟨Memory.read_write_same m addr v, fun _ hne => Memory.read_write_of_ne hne m v⟩

end Sys2Proof.Machine
end

section
/-! Family 40_execution_loop.md: in which run states a step is taken, and what it runs. -/

namespace Sys2Proof.Machine

/-! ### What follows the execute phase, by the fault record and the sets-PC bit -/

theorem State.finish_of_fault {t : State} (hf : t.fault ≠ none) (d : Decoded) : t.finish d = t :=
  if_pos (by simp [Option.isSome_iff_ne_none.mpr hf])

theorem State.finish_of_setsPc {d : Decoded} (hp : d.pcIsSetByInstruction = true) (t : State) : t.finish d = t :=
  if_pos (by simp [hp])

theorem State.finish_of_advances {t : State} {d : Decoded} (hf : t.fault = none)
    (hp : d.pcIsSetByInstruction = false) : t.finish d = t.advance d.operandCount.toNat :=
  if_neg (by simp [hf, hp])

/-! ### The dispatch -/

theorem dispatchAndFinish_of_error {run : Instr → State → Result} {s : State} {op a b : Byte} {r : OpcodeReject}
    (hd : decodeInstr op a b = .error r) : dispatchAndFinish run s op a b = .next (s.raise (rejectCause r)) := by
  rw [dispatchAndFinish, hd]

theorem dispatchAndFinish_of_ok {run : Instr → State → Result} {s t : State} {op a b : Byte} {i : Instr}
    (hd : decodeInstr op a b = .ok i) (ht : run i s = .next t) :
    dispatchAndFinish run s op a b = .next (t.finish (decodeOpcode op)) := by
  simp only [dispatchAndFinish, hd, ht]

/-- The dispatch never stops the machine: the opcode's fault is raised, or the instruction answers a next state. -/
theorem dispatchAndFinish_answers_next (s : State) (op a b : Byte) :
    ∃ t, dispatchAndFinish exec s op a b = .next t := by
  cases hd : decodeInstr op a b with
  | error r => exact ⟨_, dispatchAndFinish_of_error hd⟩
  | ok i =>
    obtain ⟨u, hu⟩ := exec_answers_next i s
    exact ⟨_, dispatchAndFinish_of_ok hd hu⟩

/-! ### The step, by its run state -/

theorem step_answers_next {s : State} (hr : s.runState = .running) : ∃ t, step s = .next t := by
  rcases Nat.lt_or_ge 253 s.pc.toNat with hpc | hpc
  · exact ⟨_, stepBy_of_ge hr hpc⟩
  · rw [step_of_running hr hpc]
    exact dispatchAndFinish_answers_next ..

theorem step_of_halted {s : State} (hr : s.runState = .halted) : step s = .fault .halted := stepBy_of_halted hr

theorem step_of_faulted {s : State} (hr : s.runState = .faulted) : step s = .fault .faulted := stepBy_of_faulted hr

/-- A step whose operand fetch passes its address check, in terms of the three bytes it reads. -/
theorem step_of_bytes {s : State} {op a b : Byte} (hr : s.runState = .running) (hpc : s.pc.toNat < 254)
    (hop : Memory.read s.mem s.pc.toNat = op) (ha : Memory.read s.mem (s.pc.toNat + 1) = a)
    (hb : Memory.read s.mem (s.pc.toNat + 2) = b) : step s = dispatchAndFinish exec s op a b := by
  rw [step_of_running hr (Nat.le_of_lt_succ hpc), hop, ha, hb]

/-! ### The advance, from the pc at which the instruction was fetched -/

/-- Without the sets-PC bit the instruction leaves pc, so the advance and its fault record go by the step's own pc. -/
theorem pc_eq_of_decoded {op a b : Byte} {i : Instr} {s t : State} (hd : decodeInstr op a b = .ok i)
    (ht : exec i s = .next t) (hp : (decodeOpcode op).pcIsSetByInstruction = false) : t.pc = s.pc :=
  exec_pc_of_not_set ht (by rw [opcodeOf_of_decodeInstr hd, hp])

/-! ### The obligations -/

/-- Settles O30: each run state fixes the answer of the step, and the three answers differ. -/
theorem stepExistsExactlyWhenRunning : Obligations.StepExistsExactlyWhenRunning := by
  intro s
  cases hr : s.runState with
  | running =>
    obtain ⟨t, ht⟩ := step_answers_next hr
    simp [ht]
  | halted => simp [step_of_halted hr]
  | faulted => simp [step_of_faulted hr]

/-- Settles O29: the fetch fault, the dispatch of the three bytes, and the four ways an instruction ends its step. -/
theorem stepRunsTheDecodedInstruction : Obligations.StepRunsTheDecodedInstruction := by
  intro s op a b hr hop
  refine ⟨fun hpc => stepBy_of_ge hr (by omega), fun hpc => stepBy_of_ge hr (by omega),
    fun hpc ha hb => ⟨?invalidAlu, ?invalidControl, ?decoded⟩,
    fun _ _ hhalt hf => State.runState_halted.mpr ⟨hf, hhalt⟩⟩
  all_goals rw [step_of_bytes hr hpc hop ha hb]
  case invalidAlu =>
    exact fun hinsn => dispatchAndFinish_of_error ((decodeInstr_error_iff op a b _).mpr (.inl ⟨hinsn, rfl⟩))
  case invalidControl =>
    exact fun hinsn => dispatchAndFinish_of_error ((decodeInstr_error_iff op a b _).mpr (.inr ⟨hinsn, rfl⟩))
  case decoded =>
    intro i t rest hdecode ht
    have hd := decode_three op a b i rest hdecode
    rw [dispatchAndFinish_of_ok hd ht]
    refine ⟨fun hf => by rw [State.finish_of_fault hf], fun _ hp => by rw [State.finish_of_setsPc hp],
      fun hf hp => ?advance⟩
    have hpc' := pc_eq_of_decoded hd ht hp
    rw [State.finish_of_advances hf hp, ← hpc']
    constructor
    · intro hle
      rw [t.advance_of_lt _ (by omega)]
      rfl
    · intro hgt
      rw [t.advance_of_ge _ (by omega)]
      rfl

end Sys2Proof.Machine
end

section
/-! Family 41_alu.md: the ALU opcodes that are none (R83), and the comparison of CMP (R86). -/

namespace Sys2Proof

/-! ### The opcode bytes with bit 5 set -/

/-- With bit 5 set, every byte but the three ALU rows of R58 is the ALU kind of invalid opcode. -/
theorem selectInsn_eq_invalidAlu_iff (op : Byte) :
    selectInsn op = .invalidAlu ↔ op.getLsbD 5 = true ∧ op ≠ 0xA0 ∧ op ≠ 0xA2 ∧ op ≠ 0xA7 := by
  revert op
  decide

/-- With bit 5 clear, every byte but the ten other rows of R58 is the control kind of invalid opcode. -/
theorem selectInsn_eq_invalidControl_iff (op : Byte) :
    selectInsn op = .invalidControl ↔
      op.getLsbD 5 = false ∧ op ∉ ([0x82, 0x47, 0x01, 0x45, 0x46, 0x50, 0x11, 0x54, 0x55, 0x56] : List Byte) := by
  revert op
  decide

/-- A byte decodes, whatever follows it, exactly when it selects neither kind of invalid opcode. -/
theorem decodeInstr_ok_iff (op a b : Byte) :
    (∃ i : Instr, decodeInstr op a b = .ok i) ↔ selectInsn op ≠ .invalidAlu ∧ selectInsn op ≠ .invalidControl := by
  constructor
  · rintro ⟨i, hi⟩
    rw [← insn_of_decodeInstr hi]
    exact i.insn_valid
  · rintro ⟨halu, hcontrol⟩
    cases hd : decodeInstr op a b with
    | ok i => exact ⟨i, rfl⟩
    | error r =>
      rcases (decodeInstr_error_iff op a b r).mp hd with ⟨h, -⟩ | ⟨h, -⟩
      · exact absurd h halu
      · exact absurd h hcontrol

namespace Machine

/-- The step at an ALU opcode that is none: the dispatch raises its fault, whatever the operand bytes (R75). -/
theorem step_of_invalidAlu {s : State} (hr : s.runState = .running) (hpc : s.pc.toNat ≤ 253)
    (hinsn : selectInsn (Memory.read s.mem s.pc.toNat) = .invalidAlu) :
    step s = .next (s.raise (.unsupportedALU (Memory.read s.mem s.pc.toNat))) := by
  rw [step_of_running hr hpc]
  exact dispatchAndFinish_of_error ((decodeInstr_error_iff _ _ _ _).mpr (.inl ⟨hinsn, rfl⟩))

/-! ### CMP -/

theorem compareFlags_of_eq {u v : Byte} (h : u.toNat = v.toNat) : compareFlags u v = 0b00000001#8 := if_pos h

theorem compareFlags_of_gt {u v : Byte} (h : v.toNat < u.toNat) : compareFlags u v = 0b00000010#8 := by
  rw [compareFlags, if_neg h.ne', if_pos h]

theorem compareFlags_of_lt {u v : Byte} (h : u.toNat < v.toNat) : compareFlags u v = 0b00000100#8 := by
  rw [compareFlags, if_neg h.ne, if_neg h.asymm]

theorem exec_cmp_of_ge_left {a : Nat} (ha : 8 ≤ a) (b : Nat) (s : State) :
    exec (.cmp a b) s = .next (s.raise (.registerBounds a)) := by
  show execCmp a b s = _
  rw [execCmp, withReg_of_ge ha]

theorem exec_cmp_of_ge_right {a b : Nat} (ha : a < 8) (hb : 8 ≤ b) (s : State) :
    exec (.cmp a b) s = .next (s.raise (.registerBounds b)) := by
  show execCmp a b s = _
  rw [execCmp, withReg_of_lt ha, withReg_of_ge hb]

/-! ### The obligations -/

/-- Settles O31: the byte's kind is read off the opcode table; the step dispatches its fault, and the bytes with bit 5 set
that are not of that kind decode. -/
theorem unsupportedAluOpcodeFaults : Obligations.UnsupportedAluOpcodeFaults := by
  constructor
  · rintro s _ hr hpc rfl h5 hadd hmul hcmp
    exact step_of_invalidAlu hr hpc ((selectInsn_eq_invalidAlu_iff _).mpr ⟨h5, hadd, hmul, hcmp⟩)
  · intro op a b h5
    have hcontrol : selectInsn op ≠ .invalidControl := by simp [selectInsn_eq_invalidControl_iff, h5]
    rw [decodeInstr_ok_iff, Ne, selectInsn_eq_invalidAlu_iff]
    tauto

/-- Settles O7: the encoding, the three outcomes of the comparison, and the two register checks in their order. -/
theorem cmpSetsOneFlagByUnsignedOrder : Obligations.CmpSetsOneFlagByUnsignedOrder := by
  refine ⟨fun _ _ _ _ => rfl, fun a b ha hb s => ?flags, fun a b s ha _ _ => exec_cmp_of_ge_left ha b s,
    fun a b s ha hb _ => exec_cmp_of_ge_right (Nat.lt_succ_of_le ha) hb s⟩
  case flags =>
    simp only [exec_cmp_of_lt ha hb s, State.reg_def]
    refine ⟨fun heq => ?_, fun hgt => ?_, fun hlt => ?_⟩
    · rw [compareFlags_of_eq heq]; rfl
    · rw [compareFlags_of_gt hgt]; rfl
    · rw [compareFlags_of_lt hlt]; rfl

end Machine

end Sys2Proof
end

section
/-! Family 42_control_dispatcher.md: the dispatcher opcodes that are none (R88), and LDI, HLT, RET and JMP (R90, R92, R96,
R97). -/

namespace Sys2Proof

/-! ### The operand positions a decoder reads -/

/-- An opcode with N = 1 selects a one-operand mnemonic or no instruction. -/
theorem selectInsn_of_operandCount_one {op : Byte} (h : (decodeOpcode op).operandCount = 1) :
    selectInsn op ∈ [Insn.prn, .push, .pop, .call, .jmp, .jeq, .jne, .invalidAlu, .invalidControl] := by
  revert op
  decide

/-- An opcode with N = 0 selects an operand-free mnemonic or no instruction. -/
theorem selectInsn_of_operandCount_zero {op : Byte} (h : (decodeOpcode op).operandCount = 0) :
    selectInsn op ∈ [Insn.hlt, .ret, .invalidAlu, .invalidControl] := by
  revert op
  decide

theorem decodeInstr_ignores_second_operand {op : Byte} (h : (decodeOpcode op).operandCount = 1) (a b b' : Byte) :
    decodeInstr op a b = decodeInstr op a b' := by
  have hinsn := selectInsn_of_operandCount_one h
  unfold decodeInstr
  cases hm : selectInsn op
  case add | mul | cmp | ldi => simp [hm] at hinsn
  all_goals rfl

theorem decodeInstr_ignores_both_operands {op : Byte} (h : (decodeOpcode op).operandCount = 0) (a b a' b' : Byte) :
    decodeInstr op a b = decodeInstr op a' b' := by
  have hinsn := selectInsn_of_operandCount_zero h
  unfold decodeInstr
  cases hm : selectInsn op
  case hlt | ret | invalidAlu | invalidControl => rfl
  all_goals simp [hm] at hinsn

/-- CMP is an ALU opcode, so an instruction whose opcode has bit 5 clear is no CMP. -/
theorem Instr.ne_cmp_of_not_isAluOp {i : Instr} (h : (decodeOpcode (opcodeOf i.insn)).isAluOp = false) (a b : Nat) :
    i ≠ .cmp a b := by
  rintro rfl
  have hcmp : (decodeOpcode (opcodeOf .cmp)).isAluOp = true := by decide
  exact absurd (hcmp.symm.trans h) (by decide)

theorem decodeInstr_ldi {a : Nat} (h : a < 256) (v : Byte) : decodeInstr 0x82 (lowByte a) v = .ok (.ldi a v) := by
  show Except.ok (Instr.ldi (lowByte a).toNat v) = _
  rw [toNat_lowByte_of_lt h]

namespace Machine

/-! ### The execute phase of LDI, HLT, RET and JMP -/

theorem exec_ldi_of_lt {a : Nat} (ha : a < 8) (v : Byte) (s : State) :
    exec (.ldi a v) s = .next (s.setReg ⟨a, ha⟩ v) := by
  show execLdi a v s = _
  rw [execLdi, withReg_of_lt ha]

theorem exec_ldi_of_ge {a : Nat} (ha : 8 ≤ a) (v : Byte) (s : State) :
    exec (.ldi a v) s = .next (s.raise (.registerBounds a)) := by
  show execLdi a v s = _
  rw [execLdi, withReg_of_ge ha]

theorem exec_hlt (s : State) : exec .hlt s = .next s.setHalt := rfl

theorem exec_ret (s : State) :
    exec .ret s = .next ((s.setPc (s.readByte s.sp)).incSp Config.spModulus) := rfl

theorem exec_jmp_of_lt {a : Nat} (ha : a < 8) (s : State) :
    exec (.jmp a) s = .next (s.setPc (s.reg ⟨a, ha⟩)) := by
  show jumpToReg a s = _
  rw [jumpToReg, withReg_of_lt ha]

theorem exec_jmp_of_ge {a : Nat} (ha : 8 ≤ a) (s : State) :
    exec (.jmp a) s = .next (s.raise (.registerBounds a)) := by
  show jumpToReg a s = _
  rw [jumpToReg, withReg_of_ge ha]

theorem State.setPc_self (s : State) : s.setPc s.pc = s := rfl

/-! ### The step -/

/-- The step at a dispatcher opcode that is none: the dispatch raises its fault, whatever the operand bytes (R75). -/
theorem step_of_invalidControl {s : State} (hr : s.runState = .running) (hpc : s.pc.toNat ≤ 253)
    (hinsn : selectInsn (Memory.read s.mem s.pc.toNat) = .invalidControl) :
    step s = .next (s.raise (.unsupportedInstruction (Memory.read s.mem s.pc.toNat))) := by
  rw [step_of_running hr hpc]
  exact dispatchAndFinish_of_error ((decodeInstr_error_iff _ _ _ _).mpr (.inr ⟨hinsn, rfl⟩))

/-- The step of an instruction with N = n and P = 0 that raises no fault and has room to advance: its execute phase, then
pc at the next instruction (R76). -/
theorem step_of_advances {s t : State} {op a b : Byte} {i : Instr} {n : Nat} (hr : s.runState = .running)
    (hpc : s.pc.toNat ≤ 253) (hop : Memory.read s.mem s.pc.toNat = op)
    (ha : Memory.read s.mem (s.pc.toNat + 1) = a) (hb : Memory.read s.mem (s.pc.toNat + 2) = b)
    (hd : decodeInstr op a b = .ok i) (ht : exec i s = .next t) (hf : t.fault = none)
    (hp : (decodeOpcode op).pcIsSetByInstruction = false) (hn : (decodeOpcode op).operandCount.toNat = n)
    (hroom : s.pc.toNat + n + 1 < 256) :
    step s = .next (t.setPc (lowByte (s.pc.toNat + n + 1))) := by
  have hpc' : t.pc = s.pc := pc_eq_of_decoded hd ht hp
  rw [step_of_bytes hr (Nat.lt_succ_of_le hpc) hop ha hb, dispatchAndFinish_of_ok hd ht,
    State.finish_of_advances hf hp, hn, t.advance_of_lt n (hpc' ▸ hroom), hpc']

theorem step_ldi {a : Nat} (ha : a < 8) {v : Byte} {s : State} (hr : s.runState = .running)
    (hpc : s.pc.toNat ≤ 252) (hop : Memory.read s.mem s.pc.toNat = 0x82#8)
    (h1 : Memory.read s.mem (s.pc.toNat + 1) = lowByte a) (h2 : Memory.read s.mem (s.pc.toNat + 2) = v) :
    step s = .next ((s.setReg ⟨a, ha⟩ v).setPc (lowByte (s.pc.toNat + 3))) := by
  obtain ⟨hf, -⟩ := State.runState_running.mp hr
  exact step_of_advances (n := 2) hr (by omega) hop h1 h2 (decodeInstr_ldi (by omega) v) (exec_ldi_of_lt ha v s) hf
    (by decide) (by decide) (by omega)

theorem step_hlt {s : State} (hr : s.runState = .running) (hpc : s.pc.toNat ≤ 253)
    (hop : Memory.read s.mem s.pc.toNat = 0x01#8) :
    step s = .next (s.setHalt.setPc (lowByte (s.pc.toNat + 1))) := by
  obtain ⟨hf, -⟩ := State.runState_running.mp hr
  exact step_of_advances (n := 0) hr hpc hop rfl rfl rfl (exec_hlt s) hf (by decide) (by decide) (by omega)

/-! ### The obligations -/

/-- Settles O32: the kind of the byte read off the opcode table and the fault the step dispatches, the operand positions
the decoder ignores, and the frame of FL, since CMP is no dispatcher instruction. -/
theorem unsupportedControlOpcodeFaults : Obligations.UnsupportedControlOpcodeFaults := by
  refine ⟨?fault, ?operands, ?flags⟩
  case fault =>
    rintro s _ hr hpc rfl h5 hnone
    exact step_of_invalidControl hr hpc ((selectInsn_eq_invalidControl_iff _).mpr ⟨h5, hnone⟩)
  case operands =>
    exact fun op a b a' b' => ⟨fun hn => decodeInstr_ignores_second_operand hn a b b',
      fun hn => decodeInstr_ignores_both_operands hn a b a' b'⟩
  case flags =>
    intro i s t halu h
    obtain ⟨hfl, -, -⟩ := exec_keeps_fl_halt_out h
    exact hfl (Instr.ne_cmp_of_not_isAluOp halu)

/-- Settles O8: the encoding and its P bit, the two outcomes of the register check, and the step. -/
theorem ldiStoresItsLiteral : Obligations.LdiStoresItsLiteral :=
  ⟨fun _ _ _ => rfl, by decide, fun _ v ha s => exec_ldi_of_lt ha v s, fun _ v s ha _ => exec_ldi_of_ge ha v s,
    fun _ _ ha _ hr hpc hop h1 h2 => step_ldi ha hr hpc hop h1 h2⟩

/-- Settles O10: the step that halts and still advances, the stop after it, and the fetch fault above 253. -/
theorem hltHaltsAndStillAdvances : Obligations.HltHaltsAndStillAdvances := by
  refine ⟨rfl, exec_hlt, fun s hr hop => ⟨fun hpc => ?halts, fun hpc => stepBy_of_ge hr hpc⟩⟩
  case halts =>
    obtain ⟨hf, -⟩ := State.runState_running.mp hr
    have hhalted : (s.setHalt.setPc (lowByte (s.pc.toNat + 1))).runState = .halted :=
      State.runState_halted.mpr ⟨hf, rfl⟩
    exact ⟨step_hlt hr hpc hop, hhalted, step_of_halted hhalted⟩

/-- Settles O14: RET's execute phase answers the same state in every state, with no register check. -/
theorem retPopsIntoPc : Obligations.RetPopsIntoPc := ⟨rfl, by decide, exec_ret⟩

/-- Settles O15: the encoding and its P bit, the two outcomes of the register check, and the jump to its own pc. -/
theorem jmpSetsPcToTheRegister : Obligations.JmpSetsPcToTheRegister := by
  refine ⟨fun _ _ => rfl, by decide, fun _ ha s => exec_jmp_of_lt ha s, fun _ s ha _ => exec_jmp_of_ge ha s, ?self⟩
  case self =>
    intro a ha s htarget
    rw [exec_jmp_of_lt ha s, State.reg_def, htarget, State.setPc_self]

end Machine

end Sys2Proof
end

section
/-! Family 60_exceptions.md: a recorded fault stops every later step, and reset alone clears it. -/

namespace Sys2Proof.Machine

/-- A run of at least one step stops where its first step stops. -/
theorem run_succ_of_step_fault {M : Host.Core} {s : M.State} {r : M.Fault} (h : M.step s = .fault r) (n : Nat) :
    M.run (n + 1) s = .fault r := by
  rw [Host.Core.run, h]

/-- Only a state with no fault recorded has a next state, so no step replaces a record. -/
theorem State.fault_of_step {s t : State} (h : step s = .next t) : s.fault = none :=
  (State.runState_running.mp (step_cases h).1).1

theorem State.assertReset_fault (s : State) (g : Vector Byte 7) : (s.assertReset g).fault = none :=
  State.resetWith_fault g s.mem

theorem State.assertReset_runState (s : State) (g : Vector Byte 7) : (s.assertReset g).runState = .running :=
  State.runState_running.mpr ⟨s.assertReset_fault g, State.resetWith_halt g s.mem⟩

/-! ### The obligation -/

/-- Settles O36: the first step in FAULTED is the run's last, a state with a next one holds no record, and reset starts
with none. -/
theorem faultedIsTerminalUntilReset : Obligations.FaultedIsTerminalUntilReset := by
  refine ⟨?terminal, fun _ _ => State.fault_of_step, fun s g => ⟨s.assertReset_runState g, s.assertReset_fault g⟩⟩
  case terminal =>
    intro s n hf
    exact run_succ_of_step_fault (M := core) (step_of_faulted (State.runState_faulted.mpr hf)) n

end Sys2Proof.Machine
end

section
/-! Family 30_encoding.md: the decoder and the encoder undo each other (sections 1, 6 and 7), and their outputs byte
by byte. -/

namespace Sys2Proof

/-! ### One instruction's bytes -/

theorem operandBytes_length (i : Instr) :
    (operandBytes i).length = (decodeOpcode (opcodeOf i.insn)).operandCount.toNat := by
  rw [operandCount_opcodeOf]
  cases i <;> rfl

theorem toNat_lowByte_of_fitsByte {a : Nat} (h : fitsByte a = true) : (lowByte a).toNat = a :=
  toNat_lowByte_of_lt (of_decide_eq_true h)

theorem fitsByte_toNat (b : Byte) : fitsByte b.toNat = true := decide_eq_true b.isLt

/-- The decoder reads a well-formed instruction back from its opcode and the operand bytes it uses, whatever follows. -/
theorem decodeInstr_operandBytes {i : Instr} (h : i.wf = true) (rest : List Byte) :
    decodeInstr (opcodeOf i.insn) ((operandBytes i ++ rest).getD 0 0) ((operandBytes i ++ rest).getD 1 0) = .ok i := by
  unfold decodeInstr
  rw [selectInsn_insn]
  cases i
  case hlt | ret => rfl
  case add a b | mul a b | cmp a b =>
    obtain ⟨ha, hb⟩ := Bool.and_eq_true_iff.mp h
    simp [Instr.insn, operandBytes, toNat_lowByte_of_fitsByte ha, toNat_lowByte_of_fitsByte hb]
  all_goals simp [Instr.insn, operandBytes, toNat_lowByte_of_fitsByte h]

/-- What the decoder answers has operands that fit their bytes: they were bytes. -/
theorem wf_of_decodeInstr {op a b : Byte} {i : Instr} (h : decodeInstr op a b = .ok i) : i.wf = true := by
  unfold decodeInstr at h
  split at h <;> cases h <;> simp [Instr.wf, fitsByte_toNat]

/-- The operand bytes of a decoded instruction are those of the two it was decoded from that its opcode counts. -/
theorem operandBytes_of_decodeInstr {op a b : Byte} {i : Instr} (h : decodeInstr op a b = .ok i) :
    operandBytes i = [a, b].take (operandBytes i).length := by
  unfold decodeInstr at h
  split at h <;> cases h <;> simp [operandBytes]

/-! ### Bytes with a default -/

/-- The first `n ≤ 2` bytes of a sequence that has as many, read one by one. -/
theorem take_getD_two {n : Nat} {bytes : List Byte} (hn : n ≤ 2) (hlen : n ≤ bytes.length) :
    [bytes.getD 0 0, bytes.getD 1 0].take n = bytes.take n := by
  match n, bytes with
  | 0, _ => rfl
  | 1, _ :: _ => rfl
  | 2, _ :: _ :: _ => rfl

/-! ### The round trips -/

/-- Settles O3: the opcode selects the instruction, its operands survive their bytes, and the operand count is the
number of operand bytes, so the rest is what is dropped to. -/
theorem decodeOfEncodeIsTheInstruction : Obligations.DecodeOfEncodeIsTheInstruction := by
  intro i rest hwf
  rw [encode, List.cons_append, decode_cons, decodeInstr_operandBytes hwf rest]
  simp [← operandBytes_length]

/-- Settles O4: the decoder's answer fixes the opcode byte and the counted operand bytes, and the rest is what
follows them. -/
theorem encodeOfDecodeIsTheBytes : Obligations.EncodeOfDecodeIsTheBytes := by
  intro bytes i rest h
  cases bytes with
  | nil => cases h
  | cons op tail =>
    rw [decode_cons] at h
    split at h
    case h_1 => cases h
    case h_2 j hd =>
      split at h
      case isTrue => cases h
      case isFalse hlen =>
        cases h
        have hop := Machine.opcodeOf_of_decodeInstr hd
        have hcount : (operandBytes i).length = (decodeOpcode op).operandCount.toNat := by
          rw [operandBytes_length, hop]
        have hle : (decodeOpcode op).operandCount.toNat ≤ 2 := by
          rw [← hcount, operandBytes_of_decodeInstr hd]
          exact List.length_take_le' _ _
        have hbytes : operandBytes i = tail.take (decodeOpcode op).operandCount.toNat := by
          rw [operandBytes_of_decodeInstr hd, hcount, take_getD_two hle (Nat.le_of_not_lt hlen)]
        refine ⟨wf_of_decodeInstr hd, ?_⟩
        rw [encode, hop, hbytes, List.cons_append, List.take_append_drop]

/-! ### The decoder byte by byte -/

theorem bit_eq_decide (op : Byte) (k : Nat) : op.getLsbD k = decide (op.toNat / 2 ^ k % 2 = 1) := by
  rw [BitVec.getLsbD, Nat.testBit_eq_decide_div_mod_eq]

/-- The four fields of an opcode byte (R54, R56), as arithmetic on its value. -/
theorem decodeOpcode_fields (op : Byte) :
    (decodeOpcode op).operandCount.toNat = op.toNat / 64 ∧
    (decodeOpcode op).isAluOp = decide (op.toNat / 32 % 2 = 1) ∧
    (decodeOpcode op).pcIsSetByInstruction = decide (op.toNat / 16 % 2 = 1) ∧
    (decodeOpcode op).operationId.toNat = op.toNat % 16 := by
  have h := op.isLt
  refine ⟨?_, bit_eq_decide op 5, bit_eq_decide op 4, ?_⟩
  · simp [decodeOpcode, Nat.shiftRight_eq_div_pow]
    omega
  · simp [decodeOpcode]

/-- Settles O1: each written word, byte by byte. -/
theorem writtenWordsDecode : Obligations.WrittenWordsDecode :=
  ⟨rfl, rfl, rfl, rfl, rfl, rfl, rfl, rfl, rfl, rfl, rfl, rfl, rfl⟩

/-- Settles O2: the fields bit by bit, the invalid kinds read off the opcode table, and both counts by running over
the bytes. -/
theorem decoderOutputsOfEveryByte : Obligations.DecoderOutputsOfEveryByte := by
  refine ⟨fun op => ?_, by decide, rfl, rfl⟩
  obtain ⟨hcount, halu, hpc, hid⟩ := decodeOpcode_fields op
  refine ⟨hcount, halu, hpc, hid, ?alu, ?control⟩
  case alu =>
    refine (selectInsn_eq_invalidAlu_iff op).trans (and_congr ?_ ?_)
    · rw [bit_eq_decide]; simp
    · simp
  case control =>
    refine (selectInsn_eq_invalidControl_iff op).trans (and_congr_left' ?_)
    rw [bit_eq_decide]; simp

end Sys2Proof
end

section
/-! The execute phase as a function: the first register operand above 7 faults, else the instruction has its effect.
What the effect leaves alone and what it cannot learn follow by cases on the instruction. -/

namespace Sys2Proof.Machine

/-! ### The effect as a function -/

/-- The register a number below 8 names. -/
def regOf (a : Nat) : Fin 8 := Fin.ofNat 8 a

theorem regOf_of_lt {a : Nat} (h : a < 8) : regOf a = ⟨a, h⟩ := Fin.ext (Nat.mod_eq_of_lt h)

/-- The state after an instruction whose register operands pass their check, at a stack-pointer modulus: the next
state of `EffectAt` as a function of the state before. -/
def State.effect (modulus : Nat) (s : State) : Instr → State
  | .add a b => s.setReg (regOf a) (aluAdd (s.reg (regOf a)) (s.reg (regOf b)))
  | .mul a b => s.setReg (regOf a) (aluMul (s.reg (regOf a)) (s.reg (regOf b)))
  | .cmp a b => s.setFl (compareFlags (s.reg (regOf a)) (s.reg (regOf b)))
  | .ldi a v => s.setReg (regOf a) v
  | .prn a => s.output (s.reg (regOf a))
  | .hlt => s.setHalt
  | .push a => s.pushValue modulus (fun u => u.reg (regOf a))
  | .pop a => (s.setReg (regOf a) (s.readByte s.sp)).incSp modulus
  | .call a =>
    (s.pushValue modulus (fun _ => s.nextPc 1)).setPc ((s.pushValue modulus (fun _ => s.nextPc 1)).reg (regOf a))
  | .ret => (s.setPc (s.readByte s.sp)).incSp modulus
  | .jmp a => s.setPc (s.reg (regOf a))
  | .jeq a => s.setPc (if s.flE then s.reg (regOf a) else s.nextPc 1)
  | .jne a => s.setPc (if s.flE then s.nextPc 1 else s.reg (regOf a))

/-- The first register operand that names no register. -/
def firstBad (operands : List Nat) : Option Nat := operands.find? (fun r => decide (7 < r))

/-- The register checks of an instruction that would leave `t`, in order (R105). -/
def State.checkRegs (s : State) (operands : List Nat) (t : State) : State :=
  match firstBad operands with
  | some r => s.raise (.registerBounds r)
  | none => t

/-- The state the execute phase leaves. -/
def State.afterExec (modulus : Nat) (s : State) (i : Instr) : State :=
  s.checkRegs (accessedRegs s.flE i) (s.effect modulus i)

theorem State.checkRegs_of_bad {operands : List Nat} {r : Nat} (h : firstBad operands = some r) (s t : State) :
    s.checkRegs operands t = s.raise (.registerBounds r) := by
  rw [State.checkRegs, h]

theorem State.checkRegs_of_good {operands : List Nat} (h : firstBad operands = none) (s t : State) :
    s.checkRegs operands t = t := by
  rw [State.checkRegs, h]

theorem firstBad_cons_of_lt {a : Nat} (h : a < 8) (operands : List Nat) :
    firstBad (a :: operands) = firstBad operands := List.find?_cons_of_neg (by simp; omega)

theorem firstBad_cons_of_ge {a : Nat} (h : 8 ≤ a) (operands : List Nat) :
    firstBad (a :: operands) = some a := List.find?_cons_of_pos (decide_eq_true h)

theorem firstBad_eq_none {operands : List Nat} : firstBad operands = none ↔ ∀ r ∈ operands, r < 8 := by
  simp [firstBad, Nat.lt_succ_iff]

theorem withReg_one (a : Nat) (s : State) (k : Fin 8 → State) :
    withReg a s (fun d => .next (k d)) = .next (s.checkRegs [a] (k (regOf a))) := by
  by_cases ha : a < 8
  · rw [withReg_of_lt ha, regOf_of_lt ha, State.checkRegs_of_good ((firstBad_cons_of_lt ha []).trans rfl)]
  · have ha := Nat.le_of_not_lt ha
    rw [withReg_of_ge ha, State.checkRegs_of_bad (firstBad_cons_of_ge ha [])]

theorem withReg_two (a b : Nat) (s : State) (k : Fin 8 → Fin 8 → State) :
    withReg a s (fun d => withReg b s fun r => .next (k d r)) =
      .next (s.checkRegs [a, b] (k (regOf a) (regOf b))) := by
  by_cases ha : a < 8
  · rw [withReg_of_lt ha, withReg_one, ← regOf_of_lt ha, State.checkRegs, State.checkRegs, firstBad_cons_of_lt ha]
  · have ha := Nat.le_of_not_lt ha
    rw [withReg_of_ge ha, State.checkRegs_of_bad (firstBad_cons_of_ge ha [b])]

/-- The execute phase of every instruction, as one function of the state. -/
theorem execAt_eq (modulus : Nat) (i : Instr) (s : State) : execAt modulus i s = .next (s.afterExec modulus i) := by
  cases i with
  | add a b => exact withReg_two a b s fun d r => s.setReg d (aluAdd (s.reg d) (s.reg r))
  | mul a b => exact withReg_two a b s fun d r => s.setReg d (aluMul (s.reg d) (s.reg r))
  | cmp a b => exact withReg_two a b s fun p q => s.setFl (compareFlags (s.reg p) (s.reg q))
  | ldi a v => exact withReg_one a s fun d => s.setReg d v
  | prn a => exact withReg_one a s fun r => s.output (s.reg r)
  | hlt => rfl
  | push a => exact withReg_one a s fun r => s.pushValue modulus fun u => u.reg r
  | pop a => exact withReg_one a s fun d => (s.setReg d (s.readByte s.sp)).incSp modulus
  | call a =>
    exact withReg_one a s fun r => (s.pushValue modulus fun _ => s.nextPc 1).setPc
      ((s.pushValue modulus fun _ => s.nextPc 1).reg r)
  | ret => rfl
  | jmp a => exact withReg_one a s fun r => s.setPc (s.reg r)
  | jeq a =>
    simp only [execAt, execJeq, branchOn, State.afterExec, accessedRegs, State.effect]
    cases s.flE
    · rfl
    · exact withReg_one a s fun r => s.setPc (s.reg r)
  | jne a =>
    simp only [execAt, execJne, branchOn, State.afterExec, accessedRegs, State.effect]
    cases s.flE
    · exact withReg_one a s fun r => s.setPc (s.reg r)
    · rfl

theorem exec_eq (i : Instr) (s : State) : exec i s = .next (s.afterExec Config.spModulus i) := by
  rw [exec_eq_execAt, execAt_eq]

/-- The whole answer of an instruction whose operands name registers. -/
theorem execAt_of_good {s : State} {i : Instr} (h : ∀ r ∈ accessedRegs s.flE i, r < 8) (modulus : Nat) :
    execAt modulus i s = .next (s.effect modulus i) := by
  rw [execAt_eq, State.afterExec, State.checkRegs_of_good (firstBad_eq_none.mpr h)]

theorem exec_of_good {s : State} {i : Instr} (h : ∀ r ∈ accessedRegs s.flE i, r < 8) :
    exec i s = .next (s.effect Config.spModulus i) := exec_eq_execAt ▸ execAt_of_good h _

theorem exec_of_bad {s : State} {i : Instr} {r : Nat} (h : firstBad (accessedRegs s.flE i) = some r) :
    exec i s = .next (s.raise (.registerBounds r)) := by
  rw [exec_eq, State.afterExec, State.checkRegs_of_bad h]

/-- Two states from which an instruction makes the same register checks answer alike up to `f` and `g`, when the
fault and the effect do. -/
theorem mapNext_exec_eq {i : Instr} {s s' : State} {f g : State → State}
    (hregs : accessedRegs s'.flE i = accessedRegs s.flE i) (hraise : ∀ c : FaultCause, f (s'.raise c) = g (s.raise c))
    (heffect : (∀ r ∈ accessedRegs s.flE i, r < 8) →
      f (s'.effect Config.spModulus i) = g (s.effect Config.spModulus i)) :
    mapNext f (exec i s') = mapNext g (exec i s) := by
  cases hbad : firstBad (accessedRegs s.flE i) with
  | none =>
    have hgood := firstBad_eq_none.mp hbad
    rw [exec_of_good hgood, exec_of_good (hregs ▸ hgood)]
    exact congrArg Host.Outcome.next (heffect hgood)
  | some r =>
    rw [exec_of_bad hbad, exec_of_bad (hregs ▸ hbad)]
    exact congrArg Host.Outcome.next (hraise _)

theorem mapNext_id (r : Result) : mapNext id r = r := by cases r <;> rfl

/-- A change of the state that an instruction does not notice is the same change `g` of what it leaves. -/
theorem exec_eq_mapNext {i : Instr} {s s' : State} {g : State → State}
    (hregs : accessedRegs s'.flE i = accessedRegs s.flE i) (hraise : ∀ c : FaultCause, s'.raise c = g (s.raise c))
    (heffect : (∀ r ∈ accessedRegs s.flE i, r < 8) →
      s'.effect Config.spModulus i = g (s.effect Config.spModulus i)) :
    exec i s' = mapNext g (exec i s) :=
  (mapNext_id _).symm.trans (mapNext_exec_eq (f := id) hregs hraise heffect)

/-- Settles O18: the check finds the first bad operand, and an instruction with none raises nothing. -/
theorem registerOperandIsCheckedBeforeAnyWrite : Obligations.RegisterOperandIsCheckedBeforeAnyWrite := by
  refine fun i s => ⟨fun r h => exec_of_bad h, fun h => ?_⟩
  obtain ⟨t, ht⟩ := exec_answers_next i s
  refine ⟨t, ht, ?_⟩
  rcases exec_fault_cases ht with hf | ⟨r, hr, h8, -⟩
  · exact hf
  · exact absurd (h r hr) (by omega)

end Sys2Proof.Machine
end

section
/-! Families 20_memory.md and 60_exceptions.md section 6: the accesses of a step account for what it does to memory,
and the output port for what it does to the output history. -/

namespace Sys2Proof.Machine

/-! ### Accesses applied to a memory -/

theorem Memory.read_foldl_apply_of_not_written {accesses : List Transfer} {addr : Nat}
    (h : ∀ a v : Byte, Transfer.write a v ∈ accesses → a.toNat ≠ addr) (m : Memory) :
    Memory.read (accesses.foldl Transfer.apply m) addr = Memory.read m addr := by
  induction accesses generalizing m with
  | nil => rfl
  | cons access rest ih =>
    have hrest := ih (fun a v hv => h a v (List.mem_cons_of_mem _ hv)) (Transfer.apply m access)
    cases access with
    | read a v => exact hrest
    | write a v => exact hrest.trans (Memory.read_write_of_ne (h a v List.mem_cons_self).symm m v)

theorem Memory.foldl_apply_of_reads {accesses : List Transfer}
    (h : ∀ a v : Byte, Transfer.write a v ∉ accesses) (m : Memory) : accesses.foldl Transfer.apply m = m := by
  induction accesses with
  | nil => rfl
  | cons access rest ih =>
    cases access with
    | read a v => exact ih fun a v hv => h a v (List.mem_cons_of_mem _ hv)
    | write a v => exact absurd List.mem_cons_self (h a v)

theorem Memory.wf_foldl_apply (accesses : List Transfer) {m : Memory} (h : Memory.wf m) :
    Memory.wf (accesses.foldl Transfer.apply m) := by
  induction accesses generalizing m with
  | nil => exact h
  | cons access rest ih =>
    cases access with
    | read a v => exact ih h
    | write a v => exact ih (Memory.wf_write m a.toNat v h a.isLt)

/-! ### The accesses of the fetch -/

theorem State.mem_fetchTransfers {s : State} {access : Transfer} (h : access ∈ s.fetchTransfers) :
    ∃ addr < 256, access = .read (lowByte addr) (Memory.read s.mem addr) := by
  obtain ⟨addr, haddr, rfl⟩ := List.mem_map.mp h
  exact ⟨addr, of_decide_eq_true (List.mem_filter.mp haddr).2, rfl⟩

theorem State.write_notMem_fetchTransfers (s : State) (a v : Byte) : Transfer.write a v ∉ s.fetchTransfers := by
  intro h
  obtain ⟨_, _, h⟩ := State.mem_fetchTransfers h
  cases h

theorem State.read_fetchTransfers {s : State} {a v : Byte} (h : Transfer.read a v ∈ s.fetchTransfers) :
    v = Memory.read s.mem a.toNat := by
  obtain ⟨addr, haddr, h⟩ := State.mem_fetchTransfers h
  cases h
  rw [toNat_lowByte_of_lt haddr]

theorem State.fetchTransfers_length_le (s : State) : s.fetchTransfers.length ≤ 3 := by
  rw [State.fetchTransfers, List.length_map]
  exact List.length_filter_le _ _

/-! ### The data access of an instruction -/

theorem State.sp_setSp (s : State) (v : Byte) : (s.setSp v).sp = v := State.reg_setReg_self s spIndex v

/-- All the data accesses an instruction can make: none, a read at SP, or a push's store at the decremented SP (R40). -/
theorem State.dataTransfersAt_cases (modulus : Nat) (s : State) (i : Instr) :
    s.dataTransfersAt modulus i = [] ∨
    s.dataTransfersAt modulus i = [.read s.sp (s.readByte s.sp)] ∨
    ∃ v, s.dataTransfersAt modulus i = [.write (spDec modulus s.sp) v] ∧ ∃ r, i = .push r ∨ i = .call r := by
  cases i
  case push r =>
    by_cases hr : r < 8
    · refine .inr (.inr ⟨(s.setSp (spDec modulus s.sp)).reg ⟨r, hr⟩, ?_, r, .inl rfl⟩)
      simp [State.dataTransfersAt, hr, State.sp_setSp]
    · exact .inl (dif_neg hr)
  case call r =>
    by_cases hr : r < 8
    · exact .inr (.inr ⟨_, if_pos hr, r, .inr rfl⟩)
    · exact .inl (if_neg hr)
  case pop r =>
    by_cases hr : r < 8
    · exact .inr (.inl (if_pos hr))
    · exact .inl (if_neg hr)
  case ret => exact .inr (.inl rfl)
  all_goals exact .inl rfl

theorem State.dataTransfersAt_of_write {modulus : Nat} {s : State} {i : Instr} {a v : Byte}
    (h : Transfer.write a v ∈ s.dataTransfersAt modulus i) :
    s.dataTransfersAt modulus i = [.write a v] ∧ a = spDec modulus s.sp ∧ ∃ r, i = .push r ∨ i = .call r := by
  rcases s.dataTransfersAt_cases modulus i with e | e | ⟨w, e, hpush⟩ <;> rw [e] at h ⊢
  · cases h
  · cases List.mem_singleton.mp h
  · cases List.mem_singleton.mp h
    exact ⟨rfl, rfl, hpush⟩

theorem State.read_dataTransfersAt {modulus : Nat} {s : State} {i : Instr} {a v : Byte}
    (h : Transfer.read a v ∈ s.dataTransfersAt modulus i) : v = Memory.read s.mem a.toNat := by
  rcases s.dataTransfersAt_cases modulus i with e | e | ⟨w, e, -⟩ <;> rw [e] at h
  · cases h
  · cases List.mem_singleton.mp h
    rfl
  · cases List.mem_singleton.mp h

theorem State.dataTransfersAt_length_le (modulus : Nat) (s : State) (i : Instr) :
    (s.dataTransfersAt modulus i).length ≤ 1 := by
  rcases s.dataTransfersAt_cases modulus i with e | e | ⟨w, e, -⟩ <;> simp [e]

/-- The data access is all an execute phase does to memory; a register check that faults leaves none. -/
theorem execAt_mem {modulus : Nat} {i : Instr} {s t : State} (h : execAt modulus i s = .next t) :
    t.mem = (s.dataTransfersAt modulus i).foldl Transfer.apply s.mem := by
  rcases execAt_cases h with ⟨r, hr, h8, rfl⟩ | heffect
  · refine (Memory.foldl_apply_of_reads (fun a v hv => ?_) s.mem).symm
    obtain ⟨hone, -, b, rfl | rfl⟩ := State.dataTransfersAt_of_write hv
    all_goals
      obtain rfl := List.mem_singleton.mp hr
      simp [State.dataTransfersAt, Nat.not_lt.mpr h8] at hone
  · cases i
    case push a =>
      obtain ⟨ha, rfl⟩ := heffect
      simp [State.dataTransfersAt, ha, Transfer.apply, State.sp_setSp]
    case call a =>
      obtain ⟨ha, rfl⟩ := heffect
      simp [State.dataTransfersAt, ha, Transfer.apply]
    case pop a =>
      obtain ⟨ha, rfl⟩ := heffect
      simp [State.dataTransfersAt, ha, Transfer.apply]
    case add | mul | cmp => obtain ⟨_, _, rfl⟩ := heffect; rfl
    case hlt | ret => subst heffect; rfl
    case jeq | jne => rcases heffect with ⟨_, _, rfl⟩ | ⟨_, rfl⟩ <;> rfl
    all_goals obtain ⟨_, rfl⟩ := heffect; rfl

theorem exec_mem {i : Instr} {s t : State} (h : exec i s = .next t) :
    t.mem = (s.dataTransfers i).foldl Transfer.apply s.mem := execAt_mem (exec_eq_execAt ▸ h)

/-! ### The step -/

/-- The end of a step changes pc and the fault record alone. -/
theorem StepEnd.keeps {s u t : State} {i : Instr} (h : StepEnd s i u t) :
    t.regs = u.regs ∧ t.fl = u.fl ∧ t.halt = u.halt ∧ t.out = u.out ∧ t.mem = u.mem := by
  rcases h with ⟨_, _, _, _, rfl⟩ | ⟨_, _, rfl⟩ | ⟨_, _, _, ⟨_, rfl⟩ | ⟨_, _, rfl⟩⟩
  all_goals exact ⟨rfl, rfl, rfl, rfl, rfl⟩

/-- The accesses of a step account for all it does to memory. -/
theorem stepAt_mem {modulus : Nat} {s t : State} (h : stepAt modulus s = .next t) :
    t.mem = (s.transfersAt modulus).foldl Transfer.apply s.mem := by
  rw [State.transfersAt_of_step h, List.foldl_append, Memory.foldl_apply_of_reads s.write_notMem_fetchTransfers]
  obtain ⟨-, -, ⟨-, hcur, rfl⟩ | ⟨-, hcur, r, -, rfl⟩ | ⟨-, i, u, hcur, -, -, hu, hend⟩⟩ := stepAt_outcomes h
  · rw [hcur]; rfl
  · rw [hcur]; rfl
  · obtain ⟨-, -, -, -, hmem⟩ := hend.keeps
    rw [hcur, hmem, execAt_mem hu]

/-- An access of a step that is no fetch is the data access of the current instruction. -/
theorem State.mem_transfersAt {modulus : Nat} {s t : State} (h : stepAt modulus s = .next t) {access : Transfer}
    (ha : access ∈ s.transfersAt modulus) :
    access ∈ s.fetchTransfers ∨ ∃ i, s.current = some i ∧ access ∈ s.dataTransfersAt modulus i := by
  rw [State.transfersAt_of_step h] at ha
  rcases List.mem_append.mp ha with ha | ha
  · exact .inl ha
  · cases hcur : s.current with
    | none => simp [hcur] at ha
    | some i => exact .inr ⟨i, rfl, by simpa [hcur] using ha⟩

/-- A store in a step is a push of the current instruction, at the decremented stack pointer, and memory after the
step is memory before it with that store. -/
theorem stepAt_of_write {modulus : Nat} {s t : State} (h : stepAt modulus s = .next t) {a v : Byte}
    (hw : Transfer.write a v ∈ s.transfersAt modulus) :
    a = spDec modulus s.sp ∧ t.mem = Memory.write s.mem a.toNat v := by
  rcases State.mem_transfersAt h hw with hw | ⟨i, hcur, hw⟩
  · exact absurd hw (s.write_notMem_fetchTransfers a v)
  · obtain ⟨hone, ha, -⟩ := State.dataTransfersAt_of_write hw
    refine ⟨ha, ?_⟩
    rw [stepAt_mem h, State.transfersAt_of_step h, List.foldl_append,
      Memory.foldl_apply_of_reads s.write_notMem_fetchTransfers, hcur]
    simp only [hone]
    rfl

/-- What the fetch answers is what memory reads at pc and after it. -/
theorem State.fetch_eq_ok {s : State} {op a b : Byte} (h : s.fetch = .ok (op, a, b)) :
    Memory.read s.mem s.pc.toNat = op ∧ Memory.read s.mem (s.pc.toNat + 1) = a ∧
    Memory.read s.mem (s.pc.toNat + 2) = b := by
  rcases Nat.lt_or_ge 253 s.pc.toNat with hpc | hpc
  · rw [s.fetch_of_ge hpc] at h
    cases h
  · rw [s.fetch_of_le hpc] at h
    cases h
    exact ⟨rfl, rfl, rfl⟩

/-- The output history grows by what the output port carries: PRN's register, and nothing in a step that dispatches
no PRN or faults in its register check. -/
theorem step_out {s t : State} (h : step s = .next t) : t.out = s.out ++ s.outPort.toList := by
  obtain ⟨-, -, ⟨-, hcur, rfl⟩ | ⟨-, hcur, r, -, rfl⟩ | ⟨-, i, u, hcur, -, -, hu, hend⟩⟩ := step_outcomes h
  · simp [State.outPort, hcur]
  · simp [State.outPort, hcur]
  obtain ⟨-, -, -, hout, -⟩ := hend.keeps
  rw [hout]
  cases i
  case prn a =>
    rcases exec_cases hu with ⟨r, hr, h8, rfl⟩ | ⟨ha, rfl⟩
    · obtain rfl := List.mem_singleton.mp hr
      simp [State.outPort, hcur, h8]
    · simp [State.outPort, hcur, ha]
  all_goals
    obtain ⟨-, -, hkeeps⟩ := exec_keeps_fl_halt_out hu
    simp [State.outPort, hcur, hkeeps]

/-! ### The obligations -/

/-- Settles O23: an access that stores is a push at the decremented stack pointer. -/
theorem onlyPushAndCallStore : Obligations.OnlyPushAndCallStore := by
  constructor
  · intro i s t hpush hcall h addr
    rw [exec_mem h, Memory.foldl_apply_of_reads]
    intro a v hw
    obtain ⟨-, -, r, hi | hi⟩ := State.dataTransfersAt_of_write hw
    · exact hpush r hi
    · exact hcall r hi
  · rintro i a s t - h _ rfl addr haddr
    rw [exec_mem h, Memory.read_foldl_apply_of_not_written]
    intro b v hw
    obtain ⟨-, rfl, -⟩ := State.dataTransfersAt_of_write hw
    exact haddr.symm

/-- Settles O49: the store is the last word on its cell, and the fetch reads memory as the step left it. -/
theorem storeIsSeenByTheNextFetch : Obligations.StoreIsSeenByTheNextFetch := by
  intro s t addr v h hw
  rw [step_eq_stepAt] at h
  obtain ⟨-, hmem⟩ := stepAt_of_write h hw
  have hread : Memory.read t.mem addr.toNat = v := by rw [hmem, Memory.read_write_same]
  refine ⟨hread, fun op a b hfetch => ?_⟩
  obtain ⟨hop, ha, hb⟩ := State.fetch_eq_ok hfetch
  refine ⟨fun e => ?_, fun e => ?_, fun e => ?_⟩
  · rw [← hop, ← e, hread]
  · rw [← ha, ← e, hread]
  · rw [← hb, ← e, hread]

/-- Settles O55: fetch reads and the one data access, each with the byte memory holds. -/
theorem transfersAccountForMemory : Obligations.TransfersAccountForMemory := by
  refine ⟨fun s => ⟨congrFun step_eq_stepAt s, rfl⟩, fun modulus s t _ h => ⟨stepAt_mem h, fun a v hr => ?_, ?_⟩⟩
  · rcases State.mem_transfersAt h hr with hr | ⟨i, -, hr⟩
    · exact State.read_fetchTransfers hr
    · exact State.read_dataTransfersAt hr
  · rw [State.transfersAt_of_step h, List.length_append]
    have hfetch := s.fetchTransfers_length_le
    cases s.current with
    | none => exact hfetch.trans (by decide)
    | some i => exact Nat.add_le_add hfetch (s.dataTransfersAt_length_le modulus i)

/-- Settles O56: the growth of the history, step by step. -/
theorem outPortCarriesTheEmittedByte : Obligations.OutPortCarriesTheEmittedByte := fun _ _ => step_out

end Sys2Proof.Machine
end

section
/-! Families 40_execution_loop.md and 60_exceptions.md: the faults a step records, its advance, its halt, and the
step at either modulus. -/

namespace Sys2Proof.Machine

/-! ### The fault a step records -/

/-- The causes a step in `s` raises before it writes anything: the operand fetch, a register check, the dispatch
(R79). -/
def State.RaisesFirst (s : State) : FaultCause → Prop
  | .memoryBounds addr => addr = 256 ∧ 254 ≤ s.pc.toNat
  | .registerBounds r => 8 ≤ r ∧ r < 256
  | .unsupportedALU op => selectInsn op = .invalidAlu
  | .unsupportedInstruction op => selectInsn op = .invalidControl

theorem raisesFirst_rejectCause {op a b : Byte} {r : OpcodeReject} (h : decodeInstr op a b = .error r) (s : State) :
    s.RaisesFirst (rejectCause r) := by
  rcases (decodeInstr_error_iff op a b r).mp h with ⟨hinsn, rfl⟩ | ⟨hinsn, rfl⟩
  · exact hinsn
  · exact hinsn

/-- A register operand of a well-formed instruction is a byte. -/
theorem lt_of_mem_accessedRegs {i : Instr} {equal : Bool} {r : Nat} (hwf : i.wf = true)
    (hr : r ∈ accessedRegs equal i) : r < 256 := by
  cases i
  case add | mul | cmp => simp [Instr.wf, fitsByte, accessedRegs] at hwf hr; omega
  case hlt | ret => cases hr
  case jeq | jne => cases equal <;> simp_all [Instr.wf, fitsByte, accessedRegs]
  all_goals
    obtain rfl := List.mem_singleton.mp hr
    exact of_decide_eq_true hwf

/-- All the faults a step can record: one it raised before any write, or the advance's at 253 over the completed execute
phase of a three-byte instruction. -/
theorem stepAt_fault_cases {modulus : Nat} {s t : State} (h : stepAt modulus s = .next t) (hf : t.fault ≠ none) :
    (∃ c, s.RaisesFirst c ∧ t = s.raise c) ∨
    (s.pc.toNat = 253 ∧ (decodeOpcode (Memory.read s.mem s.pc.toNat)).operandCount.toNat = 2 ∧
      (decodeOpcode (Memory.read s.mem s.pc.toNat)).pcIsSetByInstruction = false ∧
      ∃ i u, s.current = some i ∧ execAt modulus i s = .next u ∧ u.fault = none ∧ u.pc = s.pc ∧
        t = u.raise (.memoryBounds 256)) := by
  obtain ⟨-, -, ⟨hpc, -, rfl⟩ | ⟨-, -, r, hd, rfl⟩ | ⟨-, i, u, hcur, hd, -, hu, hend⟩⟩ := stepAt_outcomes h
  · exact .inl ⟨.memoryBounds 256, ⟨rfl, hpc⟩, rfl⟩
  · exact .inl ⟨_, raisesFirst_rejectCause hd s, rfl⟩
  · rcases hend with ⟨r, hr, h8, rfl, rfl⟩ | ⟨hu0, -, rfl⟩ | ⟨hu0, hp, hpc, ⟨-, rfl⟩ | ⟨h253, hn, rfl⟩⟩
    · exact .inl ⟨.registerBounds r, ⟨h8, lt_of_mem_accessedRegs (wf_of_decodeInstr hd) hr⟩, rfl⟩
    · exact absurd hu0 hf
    · exact absurd hu0 hf
    · exact .inr ⟨h253, hn, hp, i, u, hcur, hu, hu0, hpc, rfl⟩

theorem step_fault_cases {s t : State} (h : step s = .next t) (hf : t.fault ≠ none) :
    (∃ c, s.RaisesFirst c ∧ t = s.raise c) ∨
    (s.pc.toNat = 253 ∧ (decodeOpcode (Memory.read s.mem s.pc.toNat)).operandCount.toNat = 2 ∧
      (decodeOpcode (Memory.read s.mem s.pc.toNat)).pcIsSetByInstruction = false ∧
      ∃ i u, s.current = some i ∧ exec i s = .next u ∧ u.fault = none ∧ u.pc = s.pc ∧
        t = u.raise (.memoryBounds 256)) := by
  rw [step_eq_stepAt] at h
  rw [exec_eq_execAt]
  exact stepAt_fault_cases h hf

/-- A faulting step leaves pc, and its record names it (R108). -/
theorem stepAt_fault_pc {modulus : Nat} {s t : State} (h : stepAt modulus s = .next t) (hf : t.fault ≠ none) :
    t.pc = s.pc ∧ ∀ r ∈ t.fault, r.faultPc = s.pc := by
  rcases stepAt_fault_cases h hf with ⟨c, -, rfl⟩ | ⟨-, -, -, i, u, -, -, -, hpc, rfl⟩
  · exact ⟨rfl, fun r hr => by cases hr; rfl⟩
  · exact ⟨hpc, fun r hr => by cases hr; exact hpc⟩

/-! ### The halt of a step -/

theorem pcIsSet_hlt : (decodeOpcode (opcodeOf .hlt)).pcIsSetByInstruction = false := pcIsSet_opcodeOf .hlt

theorem operandCount_hlt : (decodeOpcode (opcodeOf .hlt)).operandCount.toNat = 0 := operandCount_opcodeOf .hlt

/-- The step that dispatches HLT always completes: no register to check, and room to advance at every pc it is fetched
from. -/
theorem stepAt_of_hlt {modulus : Nat} {s t : State} (h : stepAt modulus s = .next t) (hcur : s.current = some .hlt) :
    s.fault = none ∧ s.pc.toNat ≤ 253 ∧ Memory.read s.mem s.pc.toNat = opcodeOf .hlt ∧
    t = s.setHalt.setPc (lowByte (s.pc.toNat + 1)) := by
  obtain ⟨hf, -, ⟨-, hnone, -⟩ | ⟨-, hnone, -⟩ | ⟨hpc, i, u, hi, -, hop, hu, hend⟩⟩ := stepAt_outcomes h
  · exact absurd (hcur.symm.trans hnone) (by simp)
  · exact absurd (hcur.symm.trans hnone) (by simp)
  cases hcur.symm.trans hi
  cases hu
  refine ⟨hf, hpc, hop.symm, ?_⟩
  have hset := hop ▸ pcIsSet_hlt
  have hcount := hop ▸ operandCount_hlt
  rcases hend with ⟨r, hr, -⟩ | ⟨-, hp, -⟩ | ⟨-, -, -, ⟨-, rfl⟩ | ⟨-, h2, -⟩⟩
  · cases hr
  · exact absurd (hp.symm.trans hset) (by simp)
  · rw [hcount]
  · exact absurd (h2.symm.trans hcount) (by simp)

/-- A step ends with the halt flag set exactly when it dispatched HLT. -/
theorem stepAt_halt_iff {modulus : Nat} {s t : State} (h : stepAt modulus s = .next t) :
    t.halt = true ↔ s.current = some .hlt := by
  constructor
  · intro ht
    obtain ⟨-, hs, ⟨-, -, rfl⟩ | ⟨-, -, r, -, rfl⟩ | ⟨-, i, u, hcur, -, -, hu, hend⟩⟩ := stepAt_outcomes h
    · exact absurd (ht.symm.trans hs) (by simp)
    · exact absurd (ht.symm.trans hs) (by simp)
    · obtain ⟨-, -, hhalt, -, -⟩ := hend.keeps
      obtain ⟨-, hkeeps, -⟩ := execAt_keeps_fl_halt_out hu
      by_cases hi : i = .hlt
      · rw [hcur, hi]
      · exact absurd (ht.symm.trans (hhalt.trans ((hkeeps hi).trans hs))) (by simp)
  · intro hcur
    obtain ⟨-, -, -, rfl⟩ := stepAt_of_hlt h hcur
    rfl

theorem State.statusPorts_faulted (s : State) : s.statusPorts.faulted = true ↔ s.fault ≠ none :=
  decide_eq_true_iff.trans State.runState_faulted

theorem State.statusPorts_halted (s : State) : s.statusPorts.halted = true ↔ s.fault = none ∧ s.halt = true :=
  decide_eq_true_iff.trans State.runState_halted

/-! ### The step at any modulus, by its run state -/

theorem stepAt_answers_next (modulus : Nat) {s : State} (hr : s.runState = .running) :
    ∃ t, stepAt modulus s = .next t := by
  rcases Nat.lt_or_ge 253 s.pc.toNat with hpc | hpc
  · exact ⟨_, stepBy_of_ge hr hpc⟩
  · rw [stepAt, stepBy_of_running hr hpc]
    cases hd : decodeInstr (Memory.read s.mem s.pc.toNat) (Memory.read s.mem (s.pc.toNat + 1))
        (Memory.read s.mem (s.pc.toNat + 2)) with
    | error r => exact ⟨_, dispatchAndFinish_of_error hd⟩
    | ok i => exact ⟨_, dispatchAndFinish_of_ok hd (execAt_eq modulus i s)⟩

/-- The modulus reaches a step only through the instruction it dispatches. -/
theorem stepBy_of_no_current {s : State} (h : s.current = none) (run run' : Instr → State → Result) :
    stepBy run s = stepBy run' s := by
  cases hr : s.runState with
  | halted => rw [stepBy_of_halted hr, stepBy_of_halted hr]
  | faulted => rw [stepBy_of_faulted hr, stepBy_of_faulted hr]
  | running =>
    rcases Nat.lt_or_ge 253 s.pc.toNat with hpc | hpc
    · rw [stepBy_of_ge hr hpc, stepBy_of_ge hr hpc]
    · rw [stepBy_of_running hr hpc, stepBy_of_running hr hpc]
      rw [State.current_of_running hr hpc] at h
      cases hd : decodeInstr (Memory.read s.mem s.pc.toNat) (Memory.read s.mem (s.pc.toNat + 1))
          (Memory.read s.mem (s.pc.toNat + 2)) with
      | error r => rw [dispatchAndFinish_of_error hd, dispatchAndFinish_of_error hd]
      | ok i => simp [hd, Except.toOption] at h

theorem State.running_of_current {s : State} {i : Instr} (h : s.current = some i) :
    s.runState = .running ∧ s.pc.toNat ≤ 253 ∧
    decodeInstr (Memory.read s.mem s.pc.toNat) (Memory.read s.mem (s.pc.toNat + 1))
      (Memory.read s.mem (s.pc.toNat + 2)) = .ok i := by
  have hr : s.runState = .running := by
    unfold State.current at h
    split at h
    · assumption
    · cases h
  rcases Nat.lt_or_ge 253 s.pc.toNat with hpc | hpc
  · rw [State.current, hr, s.fetch_of_ge hpc] at h
    cases h
  · rw [State.current_of_running hr hpc] at h
    refine ⟨hr, hpc, ?_⟩
    cases hd : decodeInstr (Memory.read s.mem s.pc.toNat) (Memory.read s.mem (s.pc.toNat + 1))
        (Memory.read s.mem (s.pc.toNat + 2)) with
    | error r => simp [hd, Except.toOption] at h
    | ok j => simpa [hd, Except.toOption] using h

/-! ### The obligations -/

/-- Settles O33: a memory bounds fault is the operand fetch's, or the advance's at 253. -/
theorem operandFetchFaultsAboveTheTop : Obligations.OperandFetchFaultsAboveTheTop := by
  refine ⟨fun s hr hpc => stepBy_of_ge hr hpc, fun s t r h hf hcode => ?_⟩
  rcases step_fault_cases h (by simp [hf]) with ⟨c, hc, rfl⟩ | ⟨h253, hn, hp, i, u, -, -, -, -, rfl⟩
  · cases hf
    cases c with
    | memoryBounds addr =>
      obtain ⟨rfl, hpc⟩ := hc
      exact ⟨rfl, .inl hpc⟩
    | registerBounds | unsupportedALU | unsupportedInstruction => exact absurd hcode (by simp [FaultCause.code])
  · cases hf
    rw [h253] at hn hp
    exact ⟨rfl, .inr ⟨h253, BitVec.eq_of_toNat_eq hn, hp⟩⟩

/-- Settles O34: of the ways a step ends, only the advance has P = 0 and no fault. -/
theorem advanceMovesPcByTheLength : Obligations.AdvanceMovesPcByTheLength := by
  intro s t h hf hp
  obtain ⟨-, -, ⟨-, -, rfl⟩ | ⟨-, -, r, -, rfl⟩ | ⟨-, i, u, -, -, -, -, hend⟩⟩ := step_outcomes h
  · cases hf
  · cases hf
  rcases hend with ⟨r, -, -, rfl, rfl⟩ | ⟨-, hset, -⟩ | ⟨-, -, -, ⟨hroom, rfl⟩ | ⟨-, -, rfl⟩⟩
  · cases hf
  · exact absurd (hset.symm.trans hp) (by simp)
  · exact toNat_lowByte_of_lt hroom
  · cases hf

/-- Settles O35: a fault raised before any write changes the record alone, and the advance's is raised over the
completed execute phase. -/
theorem faultsArePrecise : Obligations.FaultsArePrecise := by
  intro s t r h hr
  have hf : t.fault ≠ none := by simp [hr]
  obtain ⟨hpc, hrecord⟩ := stepAt_fault_pc (step_eq_stepAt ▸ h) hf
  refine ⟨hrecord r hr, hpc, State.runState_faulted.mpr hf, ?_⟩
  rcases step_fault_cases h hf with ⟨c, -, rfl⟩ | ⟨-, -, -, i, u, hcur, hu, hu0, -, rfl⟩
  · cases hr
    exact .inl rfl
  · cases hr
    exact .inr ⟨rfl, i, u, hcur, hu, hu0, rfl⟩

/-- Settles O57: a step that ran HLT records no fault, so the two states exclude each other. -/
theorem statusPortsFollowTheStep : Obligations.StatusPortsFollowTheStep := by
  intro s t h
  rw [step_eq_stepAt] at h
  rw [State.statusPorts_faulted, State.statusPorts_halted]
  refine ⟨Iff.rfl, fun r hr => ?record, ?halted, fun ⟨⟨hnone, _⟩, hsome⟩ => hsome hnone⟩
  case record =>
    obtain ⟨-, hrecord⟩ := stepAt_fault_pc h (by simp [hr])
    simp [State.statusPorts, hr, hrecord r hr]
  case halted =>
    rw [stepAt_halt_iff h, and_iff_right_iff_imp]
    intro hcur
    obtain ⟨hf, -, -, rfl⟩ := stepAt_of_hlt h hcur
    exact hf

/-- Settles O52: the run state fixes the kind of the answer, and the modulus enters with the dispatched instruction
alone. -/
theorem stepAtEitherModulusRunsTheInstruction : Obligations.StepAtEitherModulusRunsTheInstruction := by
  intro modulus _ s
  have hcurrent : ∀ i : Instr, s.current = some i → ∃ t : State, execAt modulus i s = .next t ∧
      stepAt modulus s = .next (t.finish (decodeOpcode (Memory.read s.mem s.pc.toNat))) := by
    intro i hcur
    obtain ⟨hr, hpc, hd⟩ := State.running_of_current hcur
    obtain ⟨t, ht⟩ := execAt_answers_next modulus i s
    exact ⟨t, ht, (stepBy_of_running hr hpc).trans (dispatchAndFinish_of_ok hd ht)⟩
  have hnone : s.current = none → stepAt modulus s = step s := fun h => stepBy_of_no_current h _ _
  have hstate : (s.runState = .running ↔ ∃ t : State, stepAt modulus s = .next t) ∧
      (s.runState = .halted ↔ stepAt modulus s = .fault .halted) ∧
      (s.runState = .faulted ↔ stepAt modulus s = .fault .faulted) := by
    cases hr : s.runState with
    | running =>
      obtain ⟨t, ht⟩ := stepAt_answers_next modulus hr
      simp [ht]
    | halted => simp [show stepAt modulus s = .fault .halted from stepBy_of_halted hr]
    | faulted => simp [show stepAt modulus s = .fault .faulted from stepBy_of_faulted hr]
  obtain ⟨hrunning, hhalted, hfaulted⟩ := hstate
  exact ⟨hrunning, hhalted, hfaulted, hnone, hcurrent⟩

end Sys2Proof.Machine
end

section
/-! Families 10_state.md, 20_memory.md and 70_reset_and_hazards.md: reset, launch, and the invariant that every step
keeps. -/

namespace Sys2Proof.Machine

/-! ### The four parts of the invariant after a step -/

theorem compareFlags_legal (u v : Byte) : FlagsLegal (compareFlags u v) := by
  rcases compareFlags_oneHot u v with h | h | h <;> rw [h]
  · exact .inr (.inl rfl)
  · exact .inr (.inr (.inl rfl))
  · exact .inr (.inr (.inr rfl))

theorem execAt_flagsLegal {modulus : Nat} {i : Instr} {s t : State} (h : execAt modulus i s = .next t)
    (hfl : FlagsLegal s.fl) : FlagsLegal t.fl := by
  by_cases hcmp : ∃ a b, i = .cmp a b
  · obtain ⟨a, b, rfl⟩ := hcmp
    rcases execAt_cases h with ⟨r, -, -, rfl⟩ | ⟨ha, hb, rfl⟩
    · exact hfl
    · exact compareFlags_legal _ _
  · obtain ⟨hkeeps, -, -⟩ := execAt_keeps_fl_halt_out h
    rw [hkeeps fun a b e => hcmp ⟨a, b, e⟩]
    exact hfl

theorem stepAt_flagsLegal {modulus : Nat} {s t : State} (h : stepAt modulus s = .next t) (hfl : FlagsLegal s.fl) :
    FlagsLegal t.fl := by
  obtain ⟨-, -, ⟨-, -, rfl⟩ | ⟨-, -, r, -, rfl⟩ | ⟨-, i, u, -, -, -, hu, hend⟩⟩ := stepAt_outcomes h
  · exact hfl
  · exact hfl
  · obtain ⟨-, hflags, -, -, -⟩ := hend.keeps
    rw [hflags]
    exact execAt_flagsLegal hu hfl

theorem stepAt_memory_wf {modulus : Nat} {s t : State} (h : stepAt modulus s = .next t) (hwf : Memory.wf s.mem) :
    Memory.wf t.mem := by
  rw [stepAt_mem h]
  exact Memory.wf_foldl_apply _ hwf

/-- A halted machine stands one past the HLT that the step fetched and left in memory (R77). -/
theorem stepAt_halted {modulus : Nat} {s t : State} (h : stepAt modulus s = .next t) (ht : t.halt = true) :
    t.fault = none ∧ 1 ≤ t.pc.toNat ∧ t.pc.toNat ≤ 254 ∧ Memory.read t.mem (t.pc.toNat - 1) = 0x01#8 := by
  obtain ⟨hf, hpc, hop, rfl⟩ := stepAt_of_hlt h ((stepAt_halt_iff h).mp ht)
  have hnext : (lowByte (s.pc.toNat + 1)).toNat = s.pc.toNat + 1 := toNat_lowByte_of_lt (by omega)
  simp only [State.setPc_pc, State.setPc_mem, State.setHalt_mem, hnext]
  exact ⟨hf, by omega, by omega, hop⟩

theorem opcodeInfo_lt (op : Byte) : (BitVec.ofNat 9 op.toNat).toNat < 256 := by
  have := op.isLt
  rw [BitVec.toNat_ofNat]
  omega

/-- The nine-bit info of a decode fault holds the whole opcode byte. -/
theorem setWidth_opcodeInfo (op : Byte) : (BitVec.ofNat 9 op.toNat).setWidth 8 = op := by
  have := op.isLt
  apply BitVec.eq_of_toNat_eq
  rw [BitVec.toNat_setWidth, BitVec.toNat_ofNat]
  omega

/-- The record of a cause that a step raises is one the spec lists. -/
theorem FaultRecord.legal_of_raisesFirst {s : State} {c : FaultCause} (h : s.RaisesFirst c) (pc : Byte) :
    FaultRecord.legal ⟨c.code, c.info, pc⟩ := by
  cases c with
  | memoryBounds addr =>
    obtain ⟨rfl, -⟩ := h
    exact .inl ⟨rfl, rfl⟩
  | registerBounds r =>
    obtain ⟨h8, h256⟩ := h
    have hr : (BitVec.ofNat 9 r).toNat = r := by rw [BitVec.toNat_ofNat]; omega
    exact .inr (.inl ⟨rfl, hr.symm ▸ h8, hr.symm ▸ h256⟩)
  | unsupportedALU op =>
    refine .inr (.inr (.inl ⟨rfl, opcodeInfo_lt op, ?_⟩))
    exact (congrArg selectInsn (setWidth_opcodeInfo op)).trans h
  | unsupportedInstruction op =>
    refine .inr (.inr (.inr ⟨rfl, opcodeInfo_lt op, ?_⟩))
    exact (congrArg selectInsn (setWidth_opcodeInfo op)).trans h

theorem stepAt_fault_legal {modulus : Nat} {s t : State} (h : stepAt modulus s = .next t) :
    ∀ r ∈ t.fault, FaultRecord.legal r ∧ r.faultPc = t.pc := by
  intro r hr
  have hf : t.fault ≠ none := by rintro hnone; rw [hnone] at hr; cases hr
  obtain ⟨hpc, hrecord⟩ := stepAt_fault_pc h hf
  refine ⟨?_, (hrecord r hr).trans hpc.symm⟩
  rcases stepAt_fault_cases h hf with ⟨c, hc, rfl⟩ | ⟨-, -, -, i, u, -, -, -, -, rfl⟩
  · cases hr
    exact FaultRecord.legal_of_raisesFirst hc _
  · cases hr
    exact .inl ⟨rfl, rfl⟩

/-- Of the state before the step only its memory and FL are used: a state that steps has not halted and holds no
record. -/
theorem stepAt_keeps_inv {modulus : Nat} {s t : State} (hs : s.Inv) (h : stepAt modulus s = .next t) : t.Inv := by
  obtain ⟨hmem, hfl, -, -⟩ := hs
  exact ⟨stepAt_memory_wf h hmem, stepAt_flagsLegal h hfl, stepAt_halted h, stepAt_fault_legal h⟩

/-- Settles O40: the four parts of the invariant, at any modulus. -/
theorem everyStepKeepsTheInvariant : Obligations.EveryStepKeepsTheInvariant :=
  ⟨fun _ _ hs h => stepAt_keeps_inv hs (step_eq_stepAt ▸ h), fun _ _ _ _ hs h => stepAt_keeps_inv hs h⟩

/-! ### Reset and launch -/

theorem State.resetWith_inv (g : Vector Byte 7) {m : Memory} (h : Memory.wf m) : (State.resetWith g m).Inv :=
  ⟨h, .inl rfl, by simp, by simp⟩

theorem State.resetWith_reg_of_lt (g : Vector Byte 7) (m : Memory) {r : Nat} (h : r < 7) :
    (State.resetWith g m).regs[r] = g[r] := Vector.getElem_push_lt h

theorem State.launch_eq_some {g : Vector Byte 7} {f : Nat → Byte} {p : List Byte} {s : State}
    (h : State.launch g f p = some s) : s = State.resetWith g (Memory.ofFn fun k => p.getD k (f k)) := by
  unfold State.launch at h
  split at h
  · exact (Option.some.inj h).symm
  · cases h

theorem State.launch_isSome_iff (g : Vector Byte 7) (f : Nat → Byte) (p : List Byte) :
    (State.launch g f p).isSome = true ↔ 1 ≤ p.length ∧ p.length ≤ 256 := by
  unfold State.launch
  split
  · exact iff_of_true rfl ‹_›
  · exact iff_of_false (by simp) ‹_›

/-- Settles O39: the empty memory is canonical, and reset gives FL 0 with no halt and no record. -/
theorem invariantHoldsAtReset : Obligations.InvariantHoldsAtReset :=
  ⟨State.resetWith_inv _ Memory.wf_nil, fun g _ h => State.resetWith_inv g h⟩

/-- Settles O37: the reset state, field by field. -/
theorem resetValues : Obligations.ResetValues := fun s g =>
  ⟨rfl, Vector.getElem_push_eq, rfl, rfl, s.assertReset_fault g, rfl, fun _ hr => State.resetWith_reg_of_lt g s.mem hr,
    fun _ => rfl, s.assertReset_runState g⟩

/-- Settles O38: the launch state is the reset state over the memory that lists the program and `init_mem`. -/
theorem launchLoadsTheProgram : Obligations.LaunchLoadsTheProgram := by
  refine fun g f p => ⟨State.launch_isSome_iff g f p, fun s h => ?_⟩
  obtain rfl := State.launch_eq_some h
  refine ⟨fun k hk => ?_, rfl, State.resetWith_inv g (Memory.wf_ofFn _)⟩
  rw [State.resetWith_mem, Memory.read_ofFn, if_pos (show k < Config.memSize from hk), List.getD_eq_getElem?_getD]
  split
  · rw [List.getElem?_eq_getElem ‹_›, Option.getD_some]
  · rw [List.getElem?_eq_none (Nat.le_of_not_lt ‹_›), Option.getD_none]

/-! ### The canonical form -/

/-- A canonical memory lists exactly the cells whose byte is not what an unlisted address reads as. -/
theorem Memory.mem_iff_of_wf {m : Memory} (h : Memory.wf m) (c : Host.Cell) :
    c ∈ m ↔ c.2 = Memory.read m c.1 ∧ c.2 ≠ Config.unlisted c.1 := by
  induction m with
  | nil => simp
  | cons d rest ih =>
    obtain ⟨hrising, hlisted⟩ := h
    obtain ⟨hhead, hrest⟩ := List.pairwise_cons.mp hrising
    have ih := ih ⟨hrest, fun e he => hlisted e (List.mem_cons_of_mem _ he)⟩
    obtain ⟨k, v⟩ := d
    obtain ⟨-, hv⟩ := hlisted (k, v) List.mem_cons_self
    obtain ⟨addr, w⟩ := c
    rw [List.mem_cons, Memory.read_cons]
    by_cases hk : k = addr
    · subst hk
      have hnot : (k, w) ∉ rest := fun hmem => Nat.lt_irrefl k (hhead _ hmem)
      simp only [hnot, or_false, if_true, Prod.mk.injEq, true_and]
      exact ⟨fun e => ⟨e, e ▸ hv⟩, And.left⟩
    · simp [ih, hk, Ne.symm hk]

theorem Memory.subset_of_read_eq {m m' : Memory} (h : Memory.wf m) (h' : Memory.wf m')
    (hread : ∀ addr : Nat, addr < 256 → Memory.read m addr = Memory.read m' addr) : m ⊆ m' := by
  intro c hc
  obtain ⟨haddr, -⟩ := h.2 c hc
  rwa [Memory.mem_iff_of_wf h, hread c.1 haddr, ← Memory.mem_iff_of_wf h'] at hc

/-- Settles O42: two canonical memories that read alike list the same cells, and a rising list is fixed by its
members. -/
theorem canonicalMemoryIsDeterminedByItsBytes : Obligations.CanonicalMemoryIsDeterminedByItsBytes := by
  intro m m' h h' hread
  have hirrefl : Std.Irrefl fun c d : Host.Cell => c.1 < d.1 := ⟨fun c => Nat.lt_irrefl c.1⟩
  have hantisymm : Std.Antisymm fun c d : Host.Cell => c.1 < d.1 := ⟨fun _ _ hlt hgt => absurd hgt hlt.asymm⟩
  exact h.1.eq_of_mem_iff h'.1 fun c =>
    ⟨fun hc => Memory.subset_of_read_eq h h' hread hc,
      fun hc => Memory.subset_of_read_eq h' h (fun addr haddr => (hread addr haddr).symm) hc⟩

end Sys2Proof.Machine
end

section
/-! Families 10_state.md, 20_memory.md, 41_alu.md and 42_control_dispatcher.md: what each instruction does, what it
leaves, and what it cannot learn. -/

namespace Sys2Proof.Machine

/-! ### What an instruction leaves -/

theorem regOf_ne {a r : Nat} (ha : a < 8) (hr : r < 8) (h : r ≠ a) : (⟨r, hr⟩ : Fin 8) ≠ regOf a := by
  rw [regOf_of_lt ha]
  exact fun e => h (Fin.mk.inj e)

theorem getElem_set_of_ne {s : State} {a r : Nat} (ha : a < 8) (hr : r < 8) (h : r ≠ a) (v : Byte) :
    (s.regs.set a v)[r] = s.regs[r] := Vector.getElem_set_ne ha hr h.symm

/-- A register that the spec's table does not list as written keeps its value. -/
theorem execAt_regs_of_not_written {modulus : Nat} {i : Instr} {s t : State} (h : execAt modulus i s = .next t)
    {r : Nat} (hr : r < 8) (hw : r ∉ writtenRegs i) : t.regs[r] = s.regs[r] := by
  rcases execAt_cases h with ⟨_, _, _, rfl⟩ | heffect
  · rfl
  cases i <;> simp only [writtenRegs, List.mem_cons, List.not_mem_nil, or_false, not_or] at hw
  case add | mul => obtain ⟨ha, -, rfl⟩ := heffect; exact getElem_set_of_ne ha hr hw _
  case ldi => obtain ⟨ha, rfl⟩ := heffect; exact getElem_set_of_ne ha hr hw _
  case push | call => obtain ⟨-, rfl⟩ := heffect; exact getElem_set_of_ne (by decide) hr hw _
  case ret => subst heffect; exact getElem_set_of_ne (by decide) hr hw _
  case pop =>
    obtain ⟨ha, rfl⟩ := heffect
    exact (getElem_set_of_ne (by decide) hr hw.2 _).trans (getElem_set_of_ne ha hr hw.1 _)
  case cmp => obtain ⟨_, _, rfl⟩ := heffect; rfl
  case hlt => subst heffect; rfl
  case prn | jmp => obtain ⟨_, rfl⟩ := heffect; rfl
  case jeq | jne => rcases heffect with ⟨_, _, rfl⟩ | ⟨_, rfl⟩ <;> rfl

/-- Settles O19: the register frame at the spec's modulus. -/
theorem onlyListedRegistersChange : Obligations.OnlyListedRegistersChange :=
  fun _ _ _ h _ hr hw => execAt_regs_of_not_written (exec_eq_execAt ▸ h) hr hw

/-- Settles O22: the frame of the output history, and PRN on either side of its register check. -/
theorem onlyPrnAppendsOutput : Obligations.OnlyPrnAppendsOutput := by
  constructor
  · intro i s t hprn h
    obtain ⟨-, -, hout⟩ := exec_keeps_fl_halt_out h
    exact hout hprn
  · intro a s t h
    rcases exec_cases h with ⟨r, hr, h8, rfl⟩ | ⟨ha, rfl⟩
    · obtain rfl := List.mem_singleton.mp hr
      exact ⟨fun ha => absurd ha (by omega), fun _ => rfl⟩
    · exact ⟨fun _ => rfl, fun h8 => absurd ha (by omega)⟩

/-- Settles O24: the bit is read off the opcode table. -/
theorem onlyTheFiveJumpsWritePc : Obligations.OnlyTheFiveJumpsWritePc := by
  refine ⟨fun i s t hp h => exec_pc_of_not_set h hp, fun i => ?_⟩
  rw [pcIsSet_opcodeOf]
  cases i <;> simp [Instr.insn]

/-! ### What an instruction cannot learn -/

/-- Only JEQ and JNE choose their accesses by FL. -/
theorem accessedRegs_of_not_branch {i : Instr} (hjeq : ∀ a : Nat, i ≠ .jeq a) (hjne : ∀ a : Nat, i ≠ .jne a)
    (equal equal' : Bool) : accessedRegs equal i = accessedRegs equal' i := by
  cases i
  case jeq a => exact absurd rfl (hjeq a)
  case jne a => exact absurd rfl (hjne a)
  all_goals rfl

/-- Once FL is forgotten, the effect of an instruction that is no branch does not depend on it: CMP overwrites it,
and the others pass it through. -/
theorem State.effect_setFl {i : Instr} (hjeq : ∀ a : Nat, i ≠ .jeq a) (hjne : ∀ a : Nat, i ≠ .jne a) (modulus : Nat)
    (s : State) (f : Byte) : ((s.setFl f).effect modulus i).setFl 0 = (s.effect modulus i).setFl 0 := by
  cases i
  case jeq a => exact absurd rfl (hjeq a)
  case jne a => exact absurd rfl (hjne a)
  all_goals rfl

/-- The effect of an instruction that is none of the four does not depend on memory. -/
theorem State.effect_of_mem {i : Instr} (hpush : ∀ a : Nat, i ≠ .push a) (hpop : ∀ a : Nat, i ≠ .pop a)
    (hcall : ∀ a : Nat, i ≠ .call a) (hret : i ≠ .ret) (modulus : Nat) (s : State) (m : Memory) :
    ({ s with mem := m } : State).effect modulus i = { s.effect modulus i with mem := m } := by
  cases i
  case push a => exact absurd rfl (hpush a)
  case pop a => exact absurd rfl (hpop a)
  case call a => exact absurd rfl (hcall a)
  case ret => exact absurd rfl hret
  all_goals rfl

/-- Settles O25: an instruction that is no branch does the same once FL is forgotten, and a branch sees bit E alone. -/
theorem onlyJeqAndJneReadFlAndOnlyBitE : Obligations.OnlyJeqAndJneReadFlAndOnlyBitE := by
  constructor
  · intro i s f hjeq hjne
    exact mapNext_exec_eq (accessedRegs_of_not_branch hjeq hjne _ _) (fun _ => rfl)
      fun _ => State.effect_setFl hjeq hjne _ s f
  · intro i s f a hi hE
    have hE : (s.setFl f).flE = s.flE := hE
    refine exec_eq_mapNext (s' := s.setFl f) (congrArg (accessedRegs · i) hE) (fun _ => rfl) fun _ => ?_
    rcases hi with rfl | rfl <;> simp only [State.effect, hE] <;> rfl

/-- Settles O27: the register checks, the fault and the effect do not depend on memory. -/
theorem onlyStackInstructionsUseMemory : Obligations.OnlyStackInstructionsUseMemory :=
  fun _ s m hpush hpop hcall hret =>
    exec_eq_mapNext rfl (fun _ => rfl) fun _ => State.effect_of_mem hpush hpop hcall hret _ s m

/-! ### A register that is not read -/

theorem State.sp_setReg_of_ne {j : Fin 8} (hj : spIndex ≠ j) (s : State) (v : Byte) : (s.setReg j v).sp = s.sp :=
  s.reg_setReg_other j spIndex v hj

theorem State.incSp_setReg {j : Fin 8} (hj : spIndex ≠ j) (modulus : Nat) (s : State) (v : Byte) :
    (s.setReg j v).incSp modulus = (s.incSp modulus).setReg j v := by
  rw [State.incSp, State.sp_setReg_of_ne hj]
  exact s.setReg_comm j spIndex v _ hj.symm

/-- A push of a value that does not depend on another register passes that register through. -/
theorem State.pushValue_setReg {j : Fin 8} (hj : spIndex ≠ j) (modulus : Nat) (s : State) (v : Byte)
    {value value' : State → Byte} (hvalue : ∀ t : State, value' (t.setReg j v) = value t) :
    (s.setReg j v).pushValue modulus value' = (s.pushValue modulus value).setReg j v := by
  have hset : ∀ u : Byte, (s.setReg j v).setSp u = (s.setSp u).setReg j v :=
    fun u => s.setReg_comm j spIndex v u hj.symm
  rw [State.pushValue, State.sp_setReg_of_ne hj, hset, hvalue]
  rfl

/-- A register that an instruction neither reads nor writes passes through its effect. -/
theorem State.effect_setReg {i : Instr} {s : State} {j : Fin 8} (hgood : ∀ a ∈ accessedRegs s.flE i, a < 8)
    (hread : ∀ a ∈ readRegs i, a < 8 → regOf a ≠ j) (hwrite : ∀ a ∈ writtenRegs i, a < 8 → regOf a ≠ j)
    (modulus : Nat) (v : Byte) : (s.setReg j v).effect modulus i = (s.effect modulus i).setReg j v := by
  have hreg : ∀ a ∈ accessedRegs s.flE i, a ∈ readRegs i →
      ∀ t : State, (t.setReg j v).reg (regOf a) = t.reg (regOf a) :=
    fun a ha hr t => t.reg_setReg_other j (regOf a) v (hread a hr (hgood a ha))
  have hsp : 7 ∈ readRegs i → spIndex ≠ j := fun h7 => hread 7 h7 (by decide)
  have hdest : ∀ a ∈ accessedRegs s.flE i, a ∈ writtenRegs i →
      ∀ u : Byte, (s.setReg j v).setReg (regOf a) u = (s.setReg (regOf a) u).setReg j v :=
    fun a ha hw u => s.setReg_comm j (regOf a) v u (hwrite a hw (hgood a ha)).symm
  cases i
  case add a b | mul a b =>
    simp only [State.effect, hreg a (by simp [accessedRegs]) (by simp [readRegs]),
      hreg b (by simp [accessedRegs]) (by simp [readRegs])]
    exact hdest a (by simp [accessedRegs]) (by simp [writtenRegs]) _
  case cmp a b =>
    simp only [State.effect, hreg a (by simp [accessedRegs]) (by simp [readRegs]),
      hreg b (by simp [accessedRegs]) (by simp [readRegs])]
    rfl
  case ldi a u => exact hdest a (by simp [accessedRegs]) (by simp [writtenRegs]) u
  case prn a | jmp a =>
    simp only [State.effect, hreg a (by simp [accessedRegs]) (by simp [readRegs])]
    rfl
  case hlt => rfl
  case push a =>
    exact State.pushValue_setReg (hsp (by simp [readRegs])) modulus s v (value := fun u => u.reg (regOf a))
      (value' := fun u => u.reg (regOf a)) (hreg a (by simp [accessedRegs]) (by simp [readRegs]))
  case pop a =>
    have h7 := hsp (by simp [readRegs])
    simp only [State.effect, State.sp_setReg_of_ne h7]
    exact (congrArg (State.incSp · modulus) (hdest a (by simp [accessedRegs]) (by simp [writtenRegs]) _)).trans
      (State.incSp_setReg h7 modulus _ v)
  case call a =>
    have hpush : (s.setReg j v).pushValue modulus (fun _ => (s.setReg j v).nextPc 1) =
        (s.pushValue modulus fun _ => s.nextPc 1).setReg j v :=
      State.pushValue_setReg (hsp (by simp [readRegs])) modulus s v fun _ => rfl
    simp only [State.effect, hpush, hreg a (by simp [accessedRegs]) (by simp [readRegs])]
    rfl
  case ret =>
    have h7 := hsp (by simp [readRegs])
    simp only [State.effect, State.sp_setReg_of_ne h7]
    exact State.incSp_setReg h7 modulus (s.setPc (s.readByte s.sp)) v
  case jeq a =>
    exact congrArg (State.setPc (s.setReg j v)) (ite_congr rfl
      (fun hE => hreg a (by simp [accessedRegs, hE]) (by simp [readRegs]) s) fun _ => rfl)
  case jne a =>
    exact congrArg (State.setPc (s.setReg j v)) (ite_congr rfl (fun _ => rfl)
      fun hE => hreg a (by simp [accessedRegs, hE]) (by simp [readRegs]) s)

/-- A written register that is not read is LDI's or POP's destination, whose old value the write replaces. -/
theorem exec_setReg_of_written {i : Instr} {r : Nat} (hr : r < 8) (hread : r ∉ readRegs i) (hwrite : r ∈ writtenRegs i)
    (s : State) (v : Byte) : exec i (s.setReg ⟨r, hr⟩ v) = exec i s := by
  cases i <;> simp only [readRegs, writtenRegs, List.mem_cons, List.not_mem_nil, or_false, not_or] at hread hwrite
  case add | mul => exact absurd hwrite hread.1
  case push | call => exact absurd hwrite hread.1
  case ret => exact absurd hwrite hread
  case ldi a u =>
    subst hwrite
    rw [exec_ldi_of_lt hr, exec_ldi_of_lt hr, State.setReg_setReg]
  case pop a =>
    obtain rfl := hwrite.resolve_right hread
    have hgood : ∀ x ∈ [r], x < 8 := by simpa using hr
    have h7 : spIndex ≠ ⟨r, hr⟩ := fun e => hread (congrArg Fin.val e).symm
    rw [exec_of_good (i := .pop r) hgood, exec_of_good (i := .pop r) hgood]
    simp only [State.effect, State.sp_setReg_of_ne h7, regOf_of_lt hr]
    exact congrArg (fun t => Host.Outcome.next (State.incSp t _)) (s.setReg_setReg _ _ _)

/-- Settles O26: a register that is not written passes through the effect; a written one is a destination. -/
theorem onlyListedRegistersAreRead : Obligations.OnlyListedRegistersAreRead := by
  intro i s r hr v hread
  refine ⟨fun hwrite => ?_, fun hwrite => exec_setReg_of_written hr hread hwrite s v⟩
  have hne : ∀ l : List Nat, r ∉ l → ∀ a ∈ l, a < 8 → regOf a ≠ ⟨r, hr⟩ :=
    fun l hl a ha h8 => (regOf_ne h8 hr fun e => hl (e ▸ ha)).symm
  exact exec_eq_mapNext (s' := s.setReg ⟨r, hr⟩ v) rfl (fun _ => rfl)
    fun hgood => State.effect_setReg hgood (hne _ hread) (hne _ hwrite) _ v

end Sys2Proof.Machine
end

section
/-! Families 41_alu.md, 42_control_dispatcher.md and 95_test_vectors.md section 1: the whole next state of each
instruction, the stack pointer under either modulus, and what two instructions do one after the other. -/

namespace Sys2Proof.Machine

/-! ### ALU, PRN and the branches -/

theorem lowByte_mod (n : Nat) : lowByte (n % 256) = lowByte n := by
  apply BitVec.eq_of_toNat_eq
  rw [toNat_lowByte, toNat_lowByte, Nat.mod_mod]

theorem exec_add_of_lt {a b : Nat} (ha : a < 8) (hb : b < 8) (s : State) :
    exec (.add a b) s = .next (s.setReg ⟨a, ha⟩ (aluAdd (s.reg ⟨a, ha⟩) (s.reg ⟨b, hb⟩))) := by
  show execAdd a b s = _
  rw [execAdd, withReg_of_lt ha, withReg_of_lt hb]

theorem exec_mul_of_lt {a b : Nat} (ha : a < 8) (hb : b < 8) (s : State) :
    exec (.mul a b) s = .next (s.setReg ⟨a, ha⟩ (aluMul (s.reg ⟨a, ha⟩) (s.reg ⟨b, hb⟩))) := by
  show execMul a b s = _
  rw [execMul, withReg_of_lt ha, withReg_of_lt hb]

theorem exec_prn_of_lt {a : Nat} (ha : a < 8) (s : State) :
    exec (.prn a) s = .next (s.output (s.reg ⟨a, ha⟩)) := by
  show execPrn a s = _
  rw [execPrn, withReg_of_lt ha]

/-- A taken branch is a JMP (R98, R99). -/
theorem exec_jeq_of_flE {s : State} (h : s.flE = true) (a : Nat) : exec (.jeq a) s = exec (.jmp a) s :=
  if_pos h

theorem exec_jne_of_not_flE {s : State} (h : s.flE = false) (a : Nat) : exec (.jne a) s = exec (.jmp a) s :=
  if_pos (by rw [h, Bool.not_false])

/-- A branch that is not taken goes to the next instruction (R98, R99). -/
theorem exec_jeq_of_not_flE {s : State} (h : s.flE = false) (a : Nat) :
    exec (.jeq a) s = .next (s.setPc (s.nextPc 1)) :=
  if_neg (by rw [h, Bool.not_eq_true])

theorem exec_jne_of_flE {s : State} (h : s.flE = true) (a : Nat) :
    exec (.jne a) s = .next (s.setPc (s.nextPc 1)) :=
  if_neg (by rw [h, Bool.not_true, Bool.not_eq_true])

/-- Settles O5: the low byte of a sum is its remainder by 256. -/
theorem addWritesTheSumModulo256 : Obligations.AddWritesTheSumModulo256 := by
  intro a b ha hb s
  rw [exec_add_of_lt ha hb, aluAdd, ← lowByte_mod]
  rfl

/-- Settles O6: the low byte of a product is its remainder by 256. -/
theorem mulWritesTheProductModulo256 : Obligations.MulWritesTheProductModulo256 := by
  intro a b ha hb s
  rw [exec_mul_of_lt ha hb, aluMul, ← lowByte_mod]
  rfl

/-- Settles O9: PRN's register check passes. -/
theorem prnAppendsTheRegister : Obligations.PrnAppendsTheRegister := fun _ ha s => exec_prn_of_lt ha s

/-- Settles O16: taken it is a JMP, with a JMP's register check. -/
theorem jeqJumpsIffEqual : Obligations.JeqJumpsIffEqual :=
  ⟨fun a ha _ hE => (exec_jeq_of_flE hE a).trans (exec_jmp_of_lt ha _), fun a _ hE => exec_jeq_of_not_flE hE a,
    fun a _ hE ha => (exec_jeq_of_flE hE a).trans (exec_jmp_of_ge ha _)⟩

/-- Settles O17: taken it is a JMP, with a JMP's register check. -/
theorem jneJumpsIffNotEqual : Obligations.JneJumpsIffNotEqual :=
  ⟨fun a ha _ hE => (exec_jne_of_not_flE hE a).trans (exec_jmp_of_lt ha _), fun a _ hE => exec_jne_of_flE hE a,
    fun a _ hE ha => (exec_jne_of_not_flE hE a).trans (exec_jmp_of_ge ha _)⟩

/-- Settles O46: PRN emits the register LDI has just written. -/
theorem ldiThenPrnEmitsTheLiteral : Obligations.LdiThenPrnEmitsTheLiteral := by
  intro r v s hr
  refine ⟨_, _, exec_ldi_of_lt hr v s, exec_prn_of_lt hr _, ?_⟩
  rw [State.output_out, State.reg_setReg_self, State.setReg_out]

/-! ### A compare and the branch after it -/

/-- The three named bits of a comparison's flags are its three outcomes (R26, R86). -/
theorem compareFlags_bits (u v : Byte) :
    (compareFlags u v).getLsbD 0 = decide (u.toNat = v.toNat) ∧
    (compareFlags u v).getLsbD 1 = decide (u.toNat > v.toNat) ∧
    (compareFlags u v).getLsbD 2 = decide (u.toNat < v.toNat) := by
  rcases Nat.lt_trichotomy u.toNat v.toNat with h | h | h
  · rw [compareFlags_of_lt h]
    simp [h, h.ne, h.le]
  · rw [compareFlags_of_eq h]
    simp [h]
  · rw [compareFlags_of_gt h]
    simp [h, h.ne', h.le]

/-- Settles O47: bit E is the comparison for equality, and decides both branches. -/
theorem compareDecidesTheBranches : Obligations.CompareDecidesTheBranches := by
  intro a b c ha hb hc s
  obtain ⟨hE, hG, hL⟩ := compareFlags_bits s.regs[a] s.regs[b]
  refine ⟨_, exec_cmp_of_lt ha hb s, hE, hG, hL, ?_⟩
  by_cases heq : s.regs[a] = s.regs[b]
  · have htaken : (s.setFl (compareFlags s.regs[a] s.regs[b])).flE = true :=
      hE.trans (decide_eq_true (congrArg BitVec.toNat heq))
    rw [if_pos heq, if_pos heq]
    exact ⟨(exec_jeq_of_flE htaken c).trans (exec_jmp_of_lt hc _), exec_jne_of_flE htaken c⟩
  · have hclear : (s.setFl (compareFlags s.regs[a] s.regs[b])).flE = false :=
      hE.trans (decide_eq_false fun e => heq (BitVec.eq_of_toNat_eq e))
    rw [if_neg heq, if_neg heq]
    exact ⟨exec_jeq_of_not_flE hclear c, (exec_jne_of_not_flE hclear c).trans (exec_jmp_of_lt hc _)⟩

/-! ### The stack instructions at any modulus -/

theorem execAt_push_of_lt (modulus : Nat) {a : Nat} (ha : a < 8) (s : State) :
    execAt modulus (.push a) s = .next (s.pushValue modulus fun t => t.reg ⟨a, ha⟩) := by
  show execPushWith modulus a s = _
  rw [execPushWith, withReg_of_lt ha]

theorem execAt_pop_of_lt (modulus : Nat) {a : Nat} (ha : a < 8) (s : State) :
    execAt modulus (.pop a) s = .next ((s.setReg ⟨a, ha⟩ (s.readByte s.sp)).incSp modulus) := by
  show execPopWith modulus a s = _
  rw [execPopWith, withReg_of_lt ha]

theorem execAt_call_of_lt (modulus : Nat) {a : Nat} (ha : a < 8) (s : State) :
    execAt modulus (.call a) s = .next ((s.pushValue modulus fun _ => s.nextPc 1).setPc
      ((s.pushValue modulus fun _ => s.nextPc 1).reg ⟨a, ha⟩)) := by
  show execCallWith modulus a s = _
  rw [execCallWith, withReg_of_lt ha]

/-- Settles O51: each of the four register checks passes, and RET has none. -/
theorem stackInstructionsAtEitherModulus : Obligations.StackInstructionsAtEitherModulus :=
  fun modulus _ s => ⟨fun _ ha =>
    ⟨execAt_push_of_lt modulus ha s, execAt_pop_of_lt modulus ha s, execAt_call_of_lt modulus ha s⟩, rfl⟩

/-- Settles O11: PUSH at the spec's modulus. -/
theorem pushDecrementsThenStores : Obligations.PushDecrementsThenStores :=
  fun _ ha s => execAt_push_of_lt Config.spModulus ha s

/-- Settles O12: POP at the spec's modulus. -/
theorem popLoadsThenIncrements : Obligations.PopLoadsThenIncrements :=
  fun _ ha s => execAt_pop_of_lt Config.spModulus ha s

/-- Settles O13: CALL at the spec's modulus. -/
theorem callPushesTheReturnAddress : Obligations.CallPushesTheReturnAddress :=
  fun _ ha s => execAt_call_of_lt Config.spModulus ha s

/-- Settles O50: the two machines have one execute phase, and so one step. -/
theorem theMachineIsTheOneAtModulus256 : Obligations.TheMachineIsTheOneAtModulus256 := by
  refine ⟨fun i s => congrFun (congrFun exec_eq_execAt.symm i) s, fun s => congrFun step_eq_stepAt.symm s, ?_,
    fun _ => rfl⟩
  rw [core, step_eq_stepAt]
  rfl

/-! ### The stack pointer -/

theorem toNat_spDec {modulus : Nat} (hm : modulus = 255 ∨ modulus = 256) (sp : Byte) :
    ((spDec modulus sp).toNat : Int) = ((sp.toNat : Int) - 1) % (modulus : Int) := by
  rw [spDec, toNat_lowByte]
  rcases hm with rfl | rfl <;> omega

theorem toNat_spInc {modulus : Nat} (hm : modulus = 255 ∨ modulus = 256) (sp : Byte) :
    ((spInc modulus sp).toNat : Int) = ((sp.toNat : Int) + 1) % (modulus : Int) := by
  rw [spInc, toNat_lowByte]
  rcases hm with rfl | rfl <;> omega

theorem spDec_lt {modulus : Nat} (hm : modulus = 255 ∨ modulus = 256) (sp : Byte) :
    (spDec modulus sp).toNat < modulus := by
  have h := toNat_spDec hm sp
  rcases hm with rfl | rfl <;> omega

theorem spInc_lt {modulus : Nat} (hm : modulus = 255 ∨ modulus = 256) (sp : Byte) :
    (spInc modulus sp).toNat < modulus := by
  have h := toNat_spInc hm sp
  rcases hm with rfl | rfl <;> omega

/-- The increment undoes the decrement, except that under 255 the value 255 comes back as 0. -/
theorem spInc_spDec_iff {modulus : Nat} (hm : modulus = 255 ∨ modulus = 256) (sp : Byte) :
    spInc modulus (spDec modulus sp) = sp ↔ modulus = 256 ∨ sp ≠ 255 := by
  have hdec := toNat_spDec hm sp
  have hinc := toNat_spInc hm (spDec modulus sp)
  have hsp := sp.isLt
  rw [Ne, ← BitVec.toNat_inj, ← BitVec.toNat_inj, show (255 : Byte).toNat = 255 from rfl]
  rcases hm with rfl | rfl <;> omega

/-- Where the decrement does not pass 0, both moduli give the same. -/
theorem spDec_255 {sp : Byte} (h : sp ≠ 0) : spDec 255 sp = spDec 256 sp := by
  have h255 := toNat_spDec (.inl rfl) sp
  have h256 := toNat_spDec (.inr rfl) sp
  have hsp := sp.isLt
  have hpos : sp.toNat ≠ 0 := fun e => h (BitVec.eq_of_toNat_eq e)
  apply BitVec.eq_of_toNat_eq
  omega

/-- Where the increment does not reach 255, both moduli give the same. -/
theorem spInc_255 {sp : Byte} (h : sp.toNat ≤ 253) : spInc 255 sp = spInc 256 sp := by
  have h255 := toNat_spInc (.inl rfl) sp
  have h256 := toNat_spInc (.inr rfl) sp
  apply BitVec.eq_of_toNat_eq
  omega

theorem State.pushValue_255 {s : State} (h : s.sp ≠ 0) (value : State → Byte) :
    s.pushValue 255 value = s.pushValue 256 value := by
  rw [State.pushValue, State.pushValue, spDec_255 h]

theorem State.incSp_255 {s : State} (h : s.sp.toNat ≤ 253) : s.incSp 255 = s.incSp 256 := by
  rw [State.incSp, State.incSp, spInc_255 h]

theorem State.sp_pushValue (s : State) (modulus : Nat) (value : State → Byte) :
    (s.pushValue modulus value).sp = spDec modulus s.sp := s.sp_setSp _

theorem State.sp_incSp (s : State) (modulus : Nat) : (s.incSp modulus).sp = spInc modulus s.sp := s.sp_setSp _

/-- The byte at SP after a push is the pushed one. -/
theorem State.readByte_sp_pushValue (s : State) (modulus : Nat) (value : State → Byte) :
    (s.pushValue modulus value).readByte (s.pushValue modulus value).sp = value (s.setSp (spDec modulus s.sp)) := by
  rw [State.sp_pushValue, State.readByte, State.pushValue_mem, Memory.read_write_same]

/-- Settles O43: a remainder by either modulus fits a byte, so the byte keeps it. -/
theorem stackPointerArithmetic : Obligations.StackPointerArithmetic :=
  ⟨rfl, fun _ sp hm => ⟨toNat_spDec hm sp, toNat_spInc hm sp, spDec_lt hm sp, spInc_lt hm sp⟩⟩

/-- Settles O44: POP finds at SP what PUSH stored there, and the increment undoes the decrement. -/
theorem pushThenPopRestores : Obligations.PushThenPopRestores := by
  intro modulus a c ha hc s hm
  have ha7 : (⟨a, by omega⟩ : Fin 8) ≠ spIndex := fun e => ha.ne (congrArg Fin.val e)
  have hc7 : (⟨c, by omega⟩ : Fin 8) ≠ spIndex := fun e => hc.ne (congrArg Fin.val e)
  refine ⟨_, _, execAt_push_of_lt modulus (by omega) s, execAt_pop_of_lt modulus (by omega) _, ?value, ?pointer⟩
  case value =>
    refine (State.reg_setReg_other _ spIndex ⟨c, by omega⟩ _ hc7).trans ?_
    rw [State.reg_setReg_self, State.readByte_sp_pushValue]
    exact s.reg_setReg_other spIndex ⟨a, by omega⟩ _ ha7
  case pointer =>
    refine (Eq.congr_left ?_).trans (spInc_spDec_iff hm s.sp)
    refine (State.sp_incSp _ _).trans ?_
    rw [State.sp_setReg_of_ne hc7.symm, State.sp_pushValue]

/-- Settles O45: the RET reads the CALL's slot, whatever else happened to the state, and increments the CALL's SP. -/
theorem callThenRetResumes : Obligations.CallThenRetResumes := by
  intro modulus a s t u ha hm h hsp hcell
  obtain rfl := Host.Outcome.next.inj ((execAt_call_of_lt modulus ha s).symm.trans h)
  have husp : u.sp = (s.pushValue modulus fun _ => s.nextPc 1).sp := hsp
  refine ⟨_, rfl, ?resume, ?pointer⟩
  case resume =>
    show Memory.read u.mem u.sp.toNat = s.nextPc 1
    rw [husp]
    exact hcell.trans (s.readByte_sp_pushValue modulus fun _ => s.nextPc 1)
  case pointer =>
    rintro rfl
    refine ((u.setPc (u.readByte u.sp)).sp_incSp 256).trans ?_
    show spInc 256 u.sp = s.sp
    rw [husp, State.sp_pushValue]
    exact (spInc_spDec_iff hm s.sp).mpr (.inl rfl)

/-! ### Where the modulus matters -/

theorem execAt_of_not_stack {i : Instr} (hpush : ∀ a : Nat, i ≠ .push a) (hpop : ∀ a : Nat, i ≠ .pop a)
    (hcall : ∀ a : Nat, i ≠ .call a) (hret : i ≠ .ret) (modulus : Nat) (s : State) :
    execAt modulus i s = exec i s := by
  cases i
  case push a => exact absurd rfl (hpush a)
  case pop a => exact absurd rfl (hpop a)
  case call a => exact absurd rfl (hcall a)
  case ret => exact absurd rfl hret
  all_goals rfl

/-- POP's increment starts from the SP that its own write left. -/
theorem execAt_pop_255 {a : Nat} {s : State}
    (h : ∀ ha : a < 8, (s.setReg ⟨a, ha⟩ (s.readByte s.sp)).sp.toNat ≤ 253) :
    execAt 255 (.pop a) s = exec (.pop a) s := by
  show execPopWith 255 a s = execPopWith 256 a s
  rw [execPopWith, execPopWith]
  by_cases ha : a < 8
  · rw [withReg_of_lt ha, withReg_of_lt ha, State.incSp_255 (h ha)]
  · rw [withReg_of_ge (by omega), withReg_of_ge (by omega)]

/-- Settles O53: the modulus enters with the decrement of a push and the increment of a pop alone. -/
theorem moduliDifferOnlyWhereTheStackPointerWraps : Obligations.ModuliDifferOnlyWhereTheStackPointerWraps := by
  refine ⟨fun modulus i s hpush hpop hcall hret => execAt_of_not_stack hpush hpop hcall hret modulus s,
    fun a s h => ⟨?push, ?call⟩, fun s h => congrArg Host.Outcome.next (State.incSp_255 (s := s.setPc _) h),
    fun a s h7 h => execAt_pop_255 fun ha => ?pop, fun s h => execAt_pop_255 fun ha => ?popSp⟩
  case push =>
    show execPushWith 255 a s = execPushWith 256 a s
    simp only [execPushWith, State.pushValue_255 h]
  case call =>
    show execCallWith 255 a s = execCallWith 256 a s
    simp only [execCallWith, State.pushValue_255 h]
  case pop =>
    rw [State.sp_setReg_of_ne fun e => h7 (congrArg Fin.val e).symm]
    exact h
  case popSp =>
    have hsp : (s.setReg ⟨7, ha⟩ (s.readByte s.sp)).sp = s.readByte s.sp := s.sp_setSp _
    rw [hsp]
    exact h

/-- Settles O54: a push's address is below the modulus. -/
theorem noStepAtModulus255WritesAddress255 : Obligations.NoStepAtModulus255WritesAddress255 := by
  intro s t h
  have hstore : ∀ addr v : Byte, Transfer.write addr v ∈ s.transfersAt 255 → addr.toNat ≤ 254 := by
    intro addr v hw
    obtain ⟨rfl, -⟩ := stepAt_of_write h hw
    exact Nat.le_of_lt_succ (spDec_lt (.inl rfl) s.sp)
  refine ⟨hstore, ?_⟩
  rw [stepAt_mem h, Memory.read_foldl_apply_of_not_written]
  intro addr v hw
  exact Nat.ne_of_lt (Nat.lt_succ_of_le (hstore addr v hw))

end Sys2Proof.Machine
end

section
/-! Families 10_state.md section 5 and 40_execution_loop.md section 4: the output history that no step reads, and a
run that does not end. -/

namespace Sys2Proof.Machine

/-! ### The output history -/

/-- The state with bytes put before its output history. -/
def State.prependOut (s : State) (o : List Byte) : State := { s with out := o ++ s.out }

theorem State.effect_prependOut (modulus : Nat) (s : State) (o : List Byte) (i : Instr) :
    (s.prependOut o).effect modulus i = (s.effect modulus i).prependOut o := by
  cases i
  case prn a =>
    simp only [State.effect, State.output, State.prependOut, List.append_assoc]
    rfl
  all_goals rfl

theorem exec_prependOut (i : Instr) (s : State) (o : List Byte) :
    exec i (s.prependOut o) = mapNext (fun t => t.prependOut o) (exec i s) :=
  exec_eq_mapNext rfl (fun _ => rfl) fun _ => s.effect_prependOut _ o i

theorem State.advance_prependOut (s : State) (o : List Byte) (n : Nat) :
    (s.prependOut o).advance n = (s.advance n).prependOut o := by
  rcases Nat.lt_or_ge (s.pc.toNat + n + 1) 256 with h | h
  · rw [s.advance_of_lt n h]
    exact (s.prependOut o).advance_of_lt n h
  · rw [s.advance_of_ge n h]
    exact (s.prependOut o).advance_of_ge n h

theorem State.finish_prependOut (t : State) (o : List Byte) (d : Decoded) :
    (t.prependOut o).finish d = (t.finish d).prependOut o := by
  have hfault : (t.prependOut o).fault = t.fault := rfl
  rw [State.finish, State.finish, hfault, State.advance_prependOut]
  split <;> rfl

/-- A step passes what stands before the output history through. -/
theorem step_prependOut (s : State) (o : List Byte) :
    step (s.prependOut o) = mapNext (fun t => t.prependOut o) (step s) := by
  have hstate : (s.prependOut o).runState = s.runState := rfl
  cases hr : s.runState with
  | halted => rw [step_of_halted hr, step_of_halted (hstate.trans hr)]; rfl
  | faulted => rw [step_of_faulted hr, step_of_faulted (hstate.trans hr)]; rfl
  | running =>
    rcases Nat.lt_or_ge 253 s.pc.toNat with hpc | hpc
    · rw [step, step, stepBy_of_ge hr hpc, stepBy_of_ge (hstate.trans hr) hpc]
      rfl
    · have hfetched : ∀ op a b : Byte, dispatchAndFinish exec (s.prependOut o) op a b =
          mapNext (fun t => t.prependOut o) (dispatchAndFinish exec s op a b) := by
        intro op a b
        cases hd : decodeInstr op a b with
        | error r => rw [dispatchAndFinish_of_error hd, dispatchAndFinish_of_error hd]; rfl
        | ok i =>
          obtain ⟨u, hu⟩ := exec_answers_next i s
          have hu' : exec i (s.prependOut o) = .next (u.prependOut o) := by rw [exec_prependOut, hu]; rfl
          rw [dispatchAndFinish_of_ok hd hu, dispatchAndFinish_of_ok hd hu', State.finish_prependOut]
          rfl
      rw [step_of_running hr hpc, step_of_running (hstate.trans hr) hpc]
      exact hfetched _ _ _

/-- From a state with no output, put two histories before it: the step stops alike, or emits the same bytes after
both. -/
theorem step_of_two_histories {s : State} (hs : s.out = []) (o o' : List Byte) :
    (∀ r : Fault, step (s.prependOut o) = .fault r → step (s.prependOut o') = .fault r) ∧
    (∀ t : State, step (s.prependOut o) = .next t →
      ∃ emitted : List Byte, t.out = o ++ emitted ∧ emitted.length ≤ 1 ∧
        step (s.prependOut o') = .next { t with out := o' ++ emitted }) := by
  rw [step_prependOut, step_prependOut]
  cases hstep : step s with
  | next u =>
    refine ⟨fun r h => (nomatch h), fun t h => ?_⟩
    cases h
    have hout : u.out = s.outPort.toList := by rw [step_out hstep, hs, List.nil_append]
    exact ⟨u.out, rfl, hout ▸ Option.length_toList_le, rfl⟩
  | fault r => exact ⟨fun _ h => h, fun _ h => (nomatch h)⟩
  | refused r => exact ⟨fun _ h => (nomatch h), fun _ h => (nomatch h)⟩

/-- Settles O28: both states are the one with no output, with their histories put before it. -/
theorem outputHistoryIsNeverRead : Obligations.OutputHistoryIsNeverRead := by
  intro s o
  have hback : ∀ p : List Byte, ({ s with out := [] } : State).prependOut p = { s with out := p } :=
    fun p => by rw [State.prependOut, List.append_nil]
  have h := step_of_two_histories (s := { s with out := [] }) rfl s.out o
  rwa [hback, hback] at h

/-! ### A jump to itself -/

theorem decodeInstr_jmp {r : Nat} (h : r < 256) (b : Byte) : decodeInstr 0x54#8 (lowByte r) b = .ok (.jmp r) := by
  show Except.ok (Instr.jmp (lowByte r).toNat) = _
  rw [toNat_lowByte_of_lt h]

theorem step_jmp {r : Nat} (hr : r < 8) {s : State} (hrun : s.runState = .running) (hpc : s.pc.toNat ≤ 253)
    (hop : Memory.read s.mem s.pc.toNat = 0x54#8) (ha : Memory.read s.mem (s.pc.toNat + 1) = lowByte r) :
    step s = .next (s.setPc (s.reg ⟨r, hr⟩)) := by
  rw [step_of_bytes hrun (Nat.lt_succ_of_le hpc) hop ha rfl,
    dispatchAndFinish_of_ok (decodeInstr_jmp (by omega) _) (exec_jmp_of_lt hr s),
    State.finish_of_setsPc (by decide)]

/-- A state that steps to itself runs for ever. -/
theorem run_of_step_self {M : Host.Core} {s : M.State} (h : M.step s = .next s) (n : Nat) : M.run n s = .next s := by
  induction n with
  | zero => rfl
  | succ n ih =>
    rw [Host.Core.run, h]
    exact ih

/-- Settles O48: the step leads back to the same state, and a run is such steps. -/
theorem jumpToSelfRunsForEver : Obligations.JumpToSelfRunsForEver := by
  intro r hr s hrun hpc hop ha hself
  have hstep : step s = .next s := by
    rw [step_jmp hr hrun hpc hop ha, State.reg_def, hself, State.setPc_self]
  exact run_of_step_self (M := core) hstep

end Sys2Proof.Machine
end
